-- ==== Sys2Proof/Word.lean ====
section
/-! DEFINITION. The smallest values of the block: a bit, and a command as the host presents it. -/

namespace Sys2Proof

/-- A bit, 0 or 1 (R6): `false` is 0, `true` is 1, and `NOT b` is `!b`. -/
abbrev Bit := Bool

/-- What the host presents at the command port (R61): the 8-bit word `cmd[7:0]` and, beside it, the operand
`arg`, an unsigned integer that only `STF.INIT` looks at (R62). -/
structure Command where
  cmd : BitVec 8
  arg : Nat
  deriving DecidableEq, Repr

end Sys2Proof
end

