-- ==== Sys2Proof/Config.lean ====
section
/-! DEFINITION. What is fixed for the life of the block: the parameters (R4, R5, R29), and the free values the spec
leaves unspecified. -/

namespace Sys2Proof

/-- The two parameters that stay open (R5, D4, D5). -/
structure Config where
  /-- `PLEN_INCLUSIVE`: `false` (0) reads "within" as `i < L`, `true` (1) as `i <= L` (R82). -/
  plenInclusive : Bool
  /-- `IDX_W`, the width of every index and count register; `none` is the unbounded reading that R159 allows
  (log 3). -/
  idxW : Option Nat
  deriving DecidableEq, Repr

/-- The run length after which a stuff bit is due, `RUN_MAX` (R4). -/
@[reducible, simp] def runMax : Nat := 5

/-- The number of clean bits FFX stores, `FRAME_BITS` (R5, D12). -/
@[reducible, simp] def frameBits : Nat := 108

/-- The number of data bytes FFX can report, `N_DATA` (R5, D13). -/
@[reducible, simp] def nData : Nat := 8

namespace Config

/-- `n` is a value of an `IDX_W`-bit register, `0 <= n <= 2^IDX_W - 1`. -/
def fits (cfg : Config) (n : Nat) : Bool :=
  match cfg.idxW with
  | none => true
  | some w => decide (n < 2 ^ w)

/-- The defaults of `92_eei_decisions.md`: `PLEN_INCLUSIVE = 0`, `IDX_W = 32` (log 2). -/
def suggested : Config := { plenInclusive := false, idxW := some 32 }

/-- The bits the spec leaves unspecified (R13, R18, R166, U6): a free value, one for each number. It has no body,
so that nothing can be proved about any of them (log 4, 5). DESIGN CHOICE. -/
opaque freeBit : Nat → Bit

end Config

end Sys2Proof
end

