-- ==== Sys2Proof/Syntax.lean ====
section
/-! DEFINITION. The eight commands, one constructor per row of `spec/opcode_table.json` (R63). -/

namespace Sys2Proof

/-- A command of the block. -/
inductive Instr where
  /-- `STF.INIT L`: start a stuffing pass with protected length `L` (R80). -/
  | stfInit (L : Nat)
  /-- `STF.BIT b`: take one unstuffed bit (R81). -/
  | stfBit (b : Bit)
  /-- `DST.INIT`: start a destuffing pass (R100). -/
  | dstInit
  /-- `DST.BIT b`: take one bit of the stuffed stream (R101). -/
  | dstBit (b : Bit)
  /-- `FFX.INIT`: start an extraction pass (R115). -/
  | ffxInit
  /-- `FFX.BIT b`: append one clean bit (R116). -/
  | ffxBit (b : Bit)
  /-- `RX.INIT`: start a decode pass (R140). -/
  | rxInit
  /-- `RX.BIT b`: destuff one bit and hand a surviving one to the extractor (R141). -/
  | rxBit (b : Bit)
  deriving DecidableEq, Repr

end Sys2Proof
end

