-- ==== Sys2Proof/Decode.lean ====
section
/-! DEFINITION. The command word (R61 to R65): its fields, the decoder, the encoder, and the decoder on the numbered
words of `spec/opcode_table.json`. -/

namespace Sys2Proof

/-- Why a word is reserved (R64). -/
inductive Reserved where
  /-- `op`, bits 5:4, is 10 or 11. -/
  | opField
  /-- `zero`, bits 3:1, is not 000. -/
  | zeroField
  /-- `b`, bit 0, is 1 on an INIT. -/
  | bitOnInit
  deriving DecidableEq, Repr

namespace Decode

/-- `cmd[7:6]`, `unit` (R61). -/
def unitField (cmd : BitVec 8) : BitVec 2 := cmd.extractLsb' 6 2

/-- `cmd[5:4]`, `op` (R61). -/
def opField (cmd : BitVec 8) : BitVec 2 := cmd.extractLsb' 4 2

/-- `cmd[3:1]`, `zero` (R61). -/
def zeroField (cmd : BitVec 8) : BitVec 3 := cmd.extractLsb' 1 3

/-- `cmd[0]`, `b` (R61). -/
def bitField (cmd : BitVec 8) : Bit := cmd.getLsbD 0

/-- The INIT command of a unit; `arg` is looked at for STF only (R61, R62). -/
def initOf (unit : BitVec 2) (arg : Nat) : Instr :=
  if unit = 0b00#2 then .stfInit arg
  else if unit = 0b01#2 then .dstInit
  else if unit = 0b10#2 then .ffxInit
  else .rxInit

/-- The BIT command of a unit (R61). -/
def bitOf (unit : BitVec 2) (b : Bit) : Instr :=
  if unit = 0b00#2 then .stfBit b
  else if unit = 0b01#2 then .dstBit b
  else if unit = 0b10#2 then .ffxBit b
  else .rxBit b

end Decode

open Decode in
/-- The decoder: total, every word that R63 does not list is rejected with the reason that makes it reserved (R64).
Where several reasons hold the first of `zero`, `op`, `b` is given (the spec orders none). -/
def decode (c : Command) : Except Reserved Instr :=
  if zeroField c.cmd ≠ 0b000#3 then .error .zeroField
  else if opField c.cmd = 0b00#2 then
    if bitField c.cmd then .error .bitOnInit else .ok (initOf (unitField c.cmd) c.arg)
  else if opField c.cmd = 0b01#2 then .ok (bitOf (unitField c.cmd) (bitField c.cmd))
  else .error .opField

namespace Encode

/-- A command word put together from its fields `unit`, `op`, `b`, with `zero` = 000 (R61). -/
def assemble (unit op : BitVec 2) (b : Bit) : BitVec 8 := unit ++ op ++ 0b000#3 ++ BitVec.ofBool b

end Encode

open Encode in
/-- The encoder: the word of each command, from the encodings of R61 and R63. A command without an operand drives
`arg` with 0, which the block ignores (R62). -/
def encode : Instr → Command
  | .stfInit L => { cmd := assemble 0b00#2 0b00#2 false, arg := L }
  | .stfBit b => { cmd := assemble 0b00#2 0b01#2 b, arg := 0 }
  | .dstInit => { cmd := assemble 0b01#2 0b00#2 false, arg := 0 }
  | .dstBit b => { cmd := assemble 0b01#2 0b01#2 b, arg := 0 }
  | .ffxInit => { cmd := assemble 0b10#2 0b00#2 false, arg := 0 }
  | .ffxBit b => { cmd := assemble 0b10#2 0b01#2 b, arg := 0 }
  | .rxInit => { cmd := assemble 0b11#2 0b00#2 false, arg := 0 }
  | .rxBit b => { cmd := assemble 0b11#2 0b01#2 b, arg := 0 }

/-- The twelve legal words (R63). -/
def legalWords : List (BitVec 8) :=
  [0x00#8, 0x10#8, 0x11#8, 0x40#8, 0x50#8, 0x51#8, 0x80#8, 0x90#8, 0x91#8, 0xC0#8, 0xD0#8, 0xD1#8]

/-- The rows of the opcode map, (match, mask): a word `w` is the command of a row exactly when
`w AND mask = match` (R63). -/
def opcodeRows : List (BitVec 8 × BitVec 8) :=
  [(0x00#8, 0xFF#8), (0x10#8, 0xFE#8), (0x40#8, 0xFF#8), (0x50#8, 0xFE#8),
   (0x80#8, 0xFF#8), (0x90#8, 0xFE#8), (0xC0#8, 0xFF#8), (0xD0#8, 0xFE#8)]

/-- The command whose bits, numbered as `spec/opcode_table.json` numbers them, are the low `nbits` bits of `w`:
bits 7:0 are `cmd`, and the side operand `arg`, to which the table gives no bits, counts on from bit 8. -/
def tableCommand (nbits w : Nat) : Command :=
  let v := w % 2 ^ nbits
  { cmd := BitVec.ofNat 8 v, arg := v / 256 }

/-- What the decoder reads from a numbered word of the opcode table. -/
def decodeTableWord (nbits w : Nat) : Option Instr :=
  match decode (tableCommand nbits w) with
  | .ok i => some i
  | .error _ => none

end Sys2Proof
end

