-- ==== Sys2Proof/Machine/State.lean ====
section
/-! DEFINITION. The state of the block (`10_state.md`), the reasons a step can stop, and the state after reset. -/

namespace Sys2Proof.Machine

/-- The stuffer, STF (R11 to R16). -/
structure Stf where
  /-- `STF.PLEN`, the protected length `L` (R11). -/
  plen : Nat
  /-- `STF.run`, 0 before the first bit of a pass, else 1 to 5 (R12). -/
  run : Nat
  /-- `STF.last`, the most recently emitted bit; meaningful only when `run >= 1` (R13). -/
  last : Bit
  /-- `STF.rcnt`, unstuffed bits consumed: the raw index of the next one (R14). -/
  rcnt : Nat
  /-- `STF.scnt`, bits emitted: the stuffed index of the next one (R15). -/
  scnt : Nat
  /-- `S`, the stuffed sequence, index 0 first (R16). -/
  S : List Bit
  /-- `F`, one flag per bit of `S`, 1 for a stuff bit (R16). -/
  F : List Bit
  /-- `P`, the stuffed indices of the inserted bits, ascending (R16). -/
  P : List Nat
  /-- `M`, the raw-index to stuffed-index map (R16). -/
  M : List Nat
  deriving DecidableEq, Repr

/-- The destuffer, DST (R17 to R20). -/
structure Dst where
  /-- `DST.run`, 0 before the first bit of a pass, else 1 to 5; at 5 the next bit is dropped (R17). -/
  run : Nat
  /-- `DST.last`, the value the run is made of; meaningful only when `run >= 1` (R18). -/
  last : Bit
  /-- `DST.icnt`, input bits consumed, kept or dropped (R19). -/
  icnt : Nat
  /-- `DST.ccnt`, clean bits emitted (R19). -/
  ccnt : Nat
  /-- `C`, the clean sequence (R20). -/
  C : List Bit
  /-- `D`, one flag per input bit, 1 for a dropped one (R20). -/
  D : List Bit
  deriving DecidableEq, Repr

/-- One-bit cells by clean index: (index, bit) pairs, indices strictly rising; a cell that is not listed has no value
(R22, log 6). -/
abbrev Cells := List (Nat × Bit)

/-- The field extractor, FFX (R22, R23). -/
structure Ffx where
  /-- `FFX.cbuf`, the stored clean bits (R22). -/
  cbuf : Cells
  /-- `FFX.clen`, clean bits received, those past 107 included (R23). -/
  clen : Nat
  deriving DecidableEq, Repr

/-- The whole state: the three units, which share no register (R10), and the model's own `cfg`, `port` and `draws`. -/
structure State where
  /-- The parameters, which no command writes (R29; log 1). -/
  cfg : Config
  stf : Stf
  dst : Dst
  ffx : Ffx
  /-- How many free values have been handed out (log 5). -/
  draws : Nat
  /-- The commands presented and not yet executed, the next one first (R61; log 7). -/
  port : List Command
  deriving DecidableEq, Repr

/-- The block raises no exception and no access faults (R150, R156, R192), so there is no fault reason: safe, since
nothing is cut short. -/
inductive Fault where
  deriving DecidableEq, Repr

/-- Why a command gets no meaning. A refused command changes nothing (R155). -/
inductive Refusal where
  /-- Raised by an arm of `exec` whose instruction has no meaning yet; no arm is left. Safe: the run stops. -/
  | notModelled (mnemonic : String)
  /-- Raised by `step` on a reserved command word (R64, R153). Safe: the hardware would leave its state as it is and
  the host must not rely on that (log 9). -/
  | reservedWord (why : Reserved)
  /-- Raised by `STF.BIT`, `DST.BIT`, `FFX.BIT` and `RX.BIT` when a counter could pass `2^IDX_W - 1` (R159). Safe: the
  spec refuses the command too (log 11, 12). -/
  | counterOverflow
  /-- Raised by `STF.INIT` on an operand of more than `IDX_W` bits, which no host can present (R62; log 10). Safe: the
  run stops. -/
  | operandTooWide
  deriving DecidableEq, Repr

/-- The three outcomes of a command, at this machine's types. -/
abbrev Outcome := Host.Outcome State Fault Refusal

namespace State

/-- Reset for any parameters: every unit as its INIT leaves it, with `STF.PLEN = 0` (R30, R165). The two `last`
registers, which the spec leaves unspecified, hold the free values 0 and 1 (log 4). -/
def resetWith (cfg : Config) : State where
  cfg := cfg
  stf := { plen := 0, run := 0, last := Config.freeBit 0, rcnt := 0, scnt := 0, S := [], F := [], P := [], M := [] }
  dst := { run := 0, last := Config.freeBit 1, icnt := 0, ccnt := 0, C := [], D := [] }
  ffx := { cbuf := [], clen := 0 }
  draws := 2
  port := []

/-- The block right after reset, with the parameters at the spec's defaults (R30, R165; log 2). -/
def reset : State := resetWith Config.suggested

end State

end Sys2Proof.Machine
end

