-- ==== Sys2Proof/Machine/Ops.lean ====
section
/-! DEFINITION. The named operations over registers, cells and the command port. The block has no exception entry and
no return from one (R150, R156), so there is no such operation. -/

namespace Sys2Proof.Machine

/-! ## The cells of `FFX.cbuf` -/

namespace Cells

/-- The bit in the cell at clean index `a`; no value where nothing has been written (R22, log 6). -/
def read : Cells → Nat → Option Bit
  | [], _ => none
  | (k, v) :: rest, a => if k = a then some v else read rest a

/-- `MemWrite(a, 1, b)` (R8): store `b` in the cell at clean index `a`, keeping the indices strictly rising. -/
def write : Cells → Nat → Bit → Cells
  | [], a, b => [(a, b)]
  | (k, v) :: rest, a, b =>
    if a < k then (a, b) :: (k, v) :: rest
    else if a = k then (a, b) :: rest
    else (k, v) :: write rest a b

/-- The canonical form: indices strictly rising, none outside the frame. -/
def wf (c : Cells) : Bool :=
  decide ((c.map Prod.fst).Pairwise (· < ·)) && c.all (fun p => decide (p.1 < frameBits))

end Cells

/-! ## Whole-state updates -/

namespace State

/-- Replace the stuffer. -/
def setStf (s : State) (u : Stf) : State := { s with stf := u }

/-- Replace the destuffer. -/
def setDst (s : State) (u : Dst) : State := { s with dst := u }

/-- Replace the extractor. -/
def setFfx (s : State) (u : Ffx) : State := { s with ffx := u }

/-- Replace the commands that wait at the port. -/
def setPort (s : State) (p : List Command) : State := { s with port := p }

/-- The free value for a bit that the spec leaves unspecified (U6; log 5). -/
def freeBit (s : State) : Bit := Config.freeBit s.draws

/-- Move on to the next free value (log 5). -/
def drawn (s : State) : State := { s with draws := s.draws + 1 }

/-- The command the host presents next, and the state without it (R61); nothing when it presents none. -/
def takeCommand (s : State) : Option (Command × State) :=
  match s.port with
  | [] => none
  | c :: rest => some (c, s.setPort rest)

end State

/-- A BIT command whose counters do not fit is refused as a whole, before it changes anything (R155, R159). -/
def unlessOverflow (countersFit : Bool) (t : State) : Outcome :=
  if countersFit then .next t else .refused .counterOverflow

/-- What a step does when the host presents no command: registers and streams are written by commands only (R27, R49),
so nothing changes (log 8). DESIGN CHOICE. -/
def awaitCommand (s : State) : Outcome := .next s

/-- A word that is no command is refused (R153). -/
def refuseWord (why : Reserved) : Outcome := .refused (.reservedWord why)

end Sys2Proof.Machine
end

