-- ==== Sys2Proof/Machine/Operands.lean ====
section
/-! DEFINITION. Numbers from bits (R7), the field table with its one addressing mode (R45, R192), and the tests on
counters and runs that the commands share (R82, R86, R190). -/

namespace Sys2Proof.Machine

/-! ## Numbers from bits -/

/-- `uint(s)`, the sum of `s[i] * 2^(n-1-i)`: the bit of lowest index is the most significant (R7, R43). -/
def uint : List Bit → Nat
  | [] => 0
  | b :: rest => b.toNat * 2 ^ rest.length + uint rest

/-- `bits_N(v)`, the `N`-bit sequence with `uint(bits_N(v)) = v` (R7). -/
def bitsOf : Nat → Nat → List Bit
  | 0, _ => []
  | n + 1, v => v.testBit n :: bitsOf n v

/-- `s[a..b)`, the subsequence of indices `a, ..., b-1` (R6). -/
def slice (s : List Bit) (a b : Nat) : List Bit := (s.drop a).take (b - a)

/-! ## The field table -/

/-- The rows of the FrameFieldTable (R45). -/
inductive FrameField where
  | sof | id | rtr | ide | r0 | dlc
  | data (k : Fin 8)
  | crc | crcDelim | ack | ackDelim | eof
  deriving DecidableEq, Repr

/-- The clean index at which a field starts (R45). -/
def FrameField.start : FrameField → Nat
  | .sof => 0
  | .id => 1
  | .rtr => 12
  | .ide => 13
  | .r0 => 14
  | .dlc => 15
  | .data k => 19 + 8 * k.val
  | .crc => 83
  | .crcDelim => 98
  | .ack => 99
  | .ackDelim => 100
  | .eof => 101

/-- The width of a field in bits (R45). -/
def FrameField.width : FrameField → Nat
  | .sof => 1
  | .id => 11
  | .rtr => 1
  | .ide => 1
  | .r0 => 1
  | .dlc => 4
  | .data _ => 8
  | .crc => 15
  | .crcDelim => 1
  | .ack => 1
  | .ackDelim => 1
  | .eof => 7

/-- The table, in order of start offset: always all nineteen rows, the eight DATA rows included (R45, R46). -/
def fieldTable : List FrameField :=
  [.sof, .id, .rtr, .ide, .r0, .dlc, .data 0, .data 1, .data 2, .data 3, .data 4, .data 5, .data 6, .data 7,
   .crc, .crcDelim, .ack, .ackDelim, .eof]

namespace Ffx

/-- The `n` cells from clean index `a` on; no value if one of them has none. -/
def cells (u : Ffx) : Nat → Nat → Option (List Bit)
  | _, 0 => some []
  | a, n + 1 =>
    match u.cbuf.read a, cells u (a + 1) n with
    | some b, some bs => some (b :: bs)
    | _, _ => none

/-- `MemRead(a, n)` (R8): `uint(cbuf[a .. a+n))`, defined only when `a + n <= min(clen, FRAME_BITS)`. -/
def memRead (u : Ffx) (a n : Nat) : Option Nat :=
  if a + n ≤ min u.clen frameBits then (u.cells a n).map uint else none

end Ffx

/-! ## Tests on counters and runs -/

/-- `within(i, L)`: raw index `i` is still within the protected length, in the reading that `PLEN_INCLUSIVE`
selects (R82). -/
def within (inclusive : Bool) (i L : Nat) : Bool :=
  if inclusive then decide (i ≤ L) else decide (i < L)

/-- A new bit continues the run; before the first bit there is no comparison with `last` (R86, R81 corner case 1). -/
def continues (run : Nat) (last b : Bit) : Bool := decide (1 ≤ run) && b == last

/-- `STF.BIT` may emit two bits, so it needs `STF.scnt + 2 <= 2^IDX_W - 1` (R159). -/
def stfCountersFit (cfg : Config) (u : Stf) : Bool := cfg.fits (u.scnt + 2)

/-- `DST.BIT` needs `DST.icnt + 1 <= 2^IDX_W - 1` (R159). -/
def dstCountersFit (cfg : Config) (u : Dst) : Bool := cfg.fits (u.icnt + 1)

/-- `FFX.BIT` needs `FFX.clen + 1 <= 2^IDX_W - 1` (R159). -/
def ffxCountersFit (cfg : Config) (u : Ffx) : Bool := cfg.fits (u.clen + 1)

end Sys2Proof.Machine
end

