-- ==== Sys2Proof/Machine/Flags.lean ====
section
/-! DEFINITION. The one-bit status items and the status outputs: functions of the state, stored nowhere, read by the
host at any command boundary without side effect (R24, R27, R28, R49). -/

namespace Sys2Proof.Machine

/-! ## The stuffer -/

namespace Stf

/-- `stuff_due`: the next `STF.BIT` emits a stuff bit before its operand (R28). -/
def stuffDue (inclusive : Bool) (u : Stf) : Bool :=
  decide (u.run = runMax) && within inclusive u.rcnt u.plen

/-- The symbols `(bit, is_stuff)` on the output port, in stuffed-index order (R69). -/
def symbols (u : Stf) : List (Bit × Bit) := u.S.zip u.F

/-- `raw_of(j)`: the raw index of a stuffed index; none for a stuff bit and none past the end (R51). -/
def rawOf (u : Stf) (j : Nat) : Option Nat :=
  if j < u.scnt ∧ j ∉ u.P then some (j - (u.P.filter (· < j)).length) else none

end Stf

/-! ## The destuffer -/

namespace Dst

/-- `drop_due`: the next `DST.BIT` drops its operand (R28). -/
def dropDue (u : Dst) : Bool := decide (u.run = runMax)

/-- The input indices at which a bit was dropped (R108). -/
def dropPositions (u : Dst) : List Nat :=
  (List.range u.D.length).filter (fun j => u.D.getD j false)

/-- The clean-index to stuffed-index map: the indices that were not dropped, in order (R51, R108). -/
def cleanToStuffed (u : Dst) : List Nat :=
  (List.range u.D.length).filter (fun j => !u.D.getD j false)

end Dst

/-! ## The extractor -/

/-- The valid status outputs together: LA's DecodedFrame (R24). An output whose valid flag is 0 is absent; `data` is
present exactly when `dlc` is (R122). -/
structure DecodedFrame where
  id : Option (BitVec 11)
  dlc : Option (BitVec 4)
  data : Option (List (BitVec 8))
  crc : Option (BitVec 15)
  deriving DecidableEq, Repr

/-- One box of the auxiliary table output: start offset, width, value (R125). -/
structure FieldBox where
  start : Nat
  width : Nat
  value : Nat
  deriving DecidableEq, Repr

namespace Ffx

/-- `id_valid` (R117). -/
def idValid (u : Ffx) : Bool := decide (12 ≤ u.clen)

/-- `id`, clean bits 1..11 (R117). -/
def id (u : Ffx) : Option (BitVec 11) :=
  if u.idValid then (u.memRead 1 11).map (BitVec.ofNat 11) else none

/-- `dlc_valid` (R118). -/
def dlcValid (u : Ffx) : Bool := decide (19 ≤ u.clen)

/-- `dlc`, clean bits 15..18, not clamped (R118). -/
def dlc (u : Ffx) : Option (BitVec 4) :=
  if u.dlcValid then (u.memRead 15 4).map (BitVec.ofNat 4) else none

/-- `min(dlc, 8)`, the number of data bytes the frame claims, bounded to the eight data registers (R120, D13); 0 while
`dlc` is absent. -/
def claimedBytes (u : Ffx) : Nat :=
  match u.dlc with
  | some v => min v.toNat nData
  | none => 0

/-- `ndata`, the number of data bytes available (R120). -/
def ndata (u : Ffx) : Nat :=
  if u.clen < 19 then 0 else min u.claimedBytes ((min u.clen frameBits - 19) / 8)

/-- `data_valid[k]` (R119). -/
def dataValid (u : Ffx) (k : Nat) : Bool := decide (k < u.ndata)

/-- `data[k]`, clean bits 19+8k .. 26+8k (R119). -/
def data (u : Ffx) (k : Nat) : Option (BitVec 8) :=
  if u.dataValid k then (u.memRead (19 + 8 * k) 8).map (BitVec.ofNat 8) else none

/-- `crc_valid` (R121). -/
def crcValid (u : Ffx) : Bool := decide (98 ≤ u.clen)

/-- `crc`, clean bits 83..97 for every `dlc` (R121). -/
def crc (u : Ffx) : Option (BitVec 15) :=
  if u.crcValid then (u.memRead 83 15).map (BitVec.ofNat 15) else none

/-- The DecodedFrame the outputs make up: `data[0], ..., data[ndata-1]` in order (R24, R119, R122). -/
def frame (u : Ffx) : DecodedFrame where
  id := u.id
  dlc := u.dlc
  data := if u.dlcValid then some ((List.range u.ndata).filterMap u.data) else none
  crc := u.crc

/-- A row of the field table is available when all its bits are in, and for a DATA row only if the frame claims the
byte (R125). -/
def fieldAvailable (u : Ffx) (f : FrameField) : Bool :=
  decide (f.start + f.width ≤ u.clen) &&
    match f with
    | .data k => decide (k.val < u.claimedBytes)
    | _ => true

/-- The auxiliary output of a row: the triple (start, width, value) (R125). -/
def fieldBox (u : Ffx) (f : FrameField) : Option FieldBox :=
  if u.fieldAvailable f then
    (u.memRead f.start f.width).map (fun v => { start := f.start, width := f.width, value := v })
  else none

end Ffx

end Sys2Proof.Machine
end

