-- ==== Sys2Proof/Machine/Destuffer.lean ====
section
/-! DEFINITION. The destuffer: `DST.INIT` and `DST.BIT` (`41_destuffer.md`). -/

namespace Sys2Proof.Machine

namespace Dst

/-- The destuffer at the start of a pass; `last` is left unspecified, so its value comes from the caller (R100). -/
def start (unspecified : Bit) : Dst where
  run := 0
  last := unspecified
  icnt := 0
  ccnt := 0
  C := []
  D := []

/-- The bit that falls where a stuff bit is due: dropped whatever its value, and counted as the complement, the first
bit of the next run (R101). -/
def dropBit (u : Dst) : Dst :=
  { u with D := u.D ++ [true], last := !u.last, run := 1 }

/-- Any other bit: passed on, and counted into the run (R101). -/
def keepBit (u : Dst) (b : Bit) : Dst :=
  let v : Dst := { u with D := u.D ++ [false], C := u.C ++ [b], ccnt := u.ccnt + 1 }
  if continues v.run v.last b then { v with run := v.run + 1 } else { v with run := 1, last := b }

/-- `DST.BIT b` on the destuffer (R101). -/
def takeBit (u : Dst) (b : Bit) : Dst :=
  let v := if u.dropDue then u.dropBit else u.keepBit b
  { v with icnt := v.icnt + 1 }

end Dst

/-- `DST.INIT` (R100). -/
def execDstInit (s : State) : Outcome :=
  .next (s.setDst (Dst.start s.freeBit)).drawn

/-- `DST.BIT b` (R101), refused on counter overflow (R159). -/
def execDstBit (b : Bit) (s : State) : Outcome :=
  unlessOverflow (dstCountersFit s.cfg s.dst) (s.setDst (s.dst.takeBit b))

end Sys2Proof.Machine
end

