-- ==== Sys2Proof/Machine/Extractor.lean ====
section
/-! DEFINITION. The field extractor: `FFX.INIT` and `FFX.BIT` (`42_extractor.md`). -/

namespace Sys2Proof.Machine

namespace Ffx

/-- The extractor at the start of a pass: nothing received, and no cell with a value (R115, log 6). -/
def start : Ffx where
  cbuf := []
  clen := 0

/-- `FFX.BIT b` on the extractor: the first 108 bits of a pass are stored, every bit is counted (R116). -/
def takeBit (u : Ffx) (b : Bit) : Ffx :=
  let v : Ffx := if u.clen < frameBits then { u with cbuf := u.cbuf.write u.clen b } else u
  { v with clen := v.clen + 1 }

end Ffx

/-- `FFX.INIT` (R115). -/
def execFfxInit (s : State) : Outcome :=
  .next (s.setFfx Ffx.start)

/-- `FFX.BIT b` (R116), refused on counter overflow (R159). -/
def execFfxBit (b : Bit) (s : State) : Outcome :=
  unlessOverflow (ffxCountersFit s.cfg s.ffx) (s.setFfx (s.ffx.takeBit b))

end Sys2Proof.Machine
end

