-- ==== Sys2Proof/Machine/Chain.lean ====
section
/-! DEFINITION. The decode chain: `RX.INIT` and `RX.BIT` (`43_chain.md`). -/

namespace Sys2Proof.Machine

/-- `RX.INIT`: `DST.INIT`, then `FFX.INIT`, as one command (R140). -/
def execRxInit (s : State) : Outcome :=
  .next ((s.setDst (Dst.start s.freeBit)).drawn.setFfx Ffx.start)

/-- What `RX.BIT b` does to the two units: DST acts first, and FFX gets the bit unless DST dropped it (R141, R155). -/
def State.chainBit (s : State) (b : Bit) : State :=
  let due := s.dst.dropDue
  let t := s.setDst (s.dst.takeBit b)
  if due then t else t.setFfx (t.ffx.takeBit b)

/-- `RX.BIT b` (R141), refused as a whole when `DST.BIT` or `FFX.BIT` would be, also if this bit would be dropped
(R159; log 11). -/
def execRxBit (b : Bit) (s : State) : Outcome :=
  unlessOverflow (dstCountersFit s.cfg s.dst && ffxCountersFit s.cfg s.ffx) (s.chainBit b)

end Sys2Proof.Machine
end

