-- ==== Sys2Proof/Machine/Stuffer.lean ====
section
/-! DEFINITION. The stuffer: `STF.INIT` and `STF.BIT` (`40_stuffer.md`). -/

namespace Sys2Proof.Machine

namespace Stf

/-- The stuffer at the start of a pass with protected length `L`; `last` is left unspecified, so its value comes from
the caller (R80). -/
def start (L : Nat) (unspecified : Bit) : Stf where
  plen := L
  run := 0
  last := unspecified
  rcnt := 0
  scnt := 0
  S := []
  F := []
  P := []
  M := []

/-- `emit_S(b, f)` with the step of `STF.scnt` that goes with it (R8, R81). -/
def emit (u : Stf) (b f : Bit) : Stf :=
  { u with S := u.S ++ [b], F := u.F ++ [f], scnt := u.scnt + 1 }

/-- The stuff event: record the position, emit the complement, which starts a new run (R81, R86). -/
def insertStuff (u : Stf) : Stf :=
  let sb := !u.last
  { ({ u with P := u.P ++ [u.scnt] } : Stf).emit sb true with last := sb, run := 1 }

/-- The rest of `STF.BIT`: map and emit the unstuffed bit, and count it into the run, which saturates at 5 (R81). -/
def copyBit (u : Stf) (b : Bit) : Stf :=
  let v := ({ u with M := u.M ++ [u.scnt] } : Stf).emit b false
  let w : Stf :=
    if continues v.run v.last b then { v with run := min (v.run + 1) runMax }
    else { v with run := 1, last := b }
  { w with rcnt := w.rcnt + 1 }

/-- `STF.BIT b` on the stuffer: the stuff bit first if one is due, then `b` (R81, R155). -/
def takeBit (inclusive : Bool) (u : Stf) (b : Bit) : Stf :=
  (if u.stuffDue inclusive then u.insertStuff else u).copyBit b

end Stf

/-- `STF.INIT L` (R80). An operand that does not fit in `IDX_W` bits cannot be presented (R62; log 10). -/
def execStfInit (L : Nat) (s : State) : Outcome :=
  if s.cfg.fits L then .next (s.setStf (Stf.start L s.freeBit)).drawn else .refused .operandTooWide

/-- `STF.BIT b` (R81), refused on counter overflow (R159). -/
def execStfBit (b : Bit) (s : State) : Outcome :=
  unlessOverflow (stfCountersFit s.cfg s.stf) (s.setStf (s.stf.takeBit s.cfg.plenInclusive b))

end Sys2Proof.Machine
end

