-- ==== Sys2Proof/Machine/Dispatch.lean ====
section
/-! DEFINITION. The meaning of each command, one arm per constructor. -/

namespace Sys2Proof.Machine

def exec (i : Instr) (s : State) : Host.Outcome State Fault Refusal :=
  match i with
  | .stfInit L => Sys2Proof.Machine.execStfInit L s
  | .stfBit b => Sys2Proof.Machine.execStfBit b s
  | .dstInit => Sys2Proof.Machine.execDstInit s
  | .dstBit b => Sys2Proof.Machine.execDstBit b s
  | .ffxInit => Sys2Proof.Machine.execFfxInit s
  | .ffxBit b => Sys2Proof.Machine.execFfxBit b s
  | .rxInit => Sys2Proof.Machine.execRxInit s
  | .rxBit b => Sys2Proof.Machine.execRxBit b s

end Sys2Proof.Machine
end

