-- ==== Sys2Proof/Machine/Step.lean ====
section
/-! DEFINITION. One step of the block: the next command at the port, to completion (R52, R61). -/

namespace Sys2Proof.Machine

/-- Take the next command, decode it, execute it. There is no program counter and no fetch (R26, R54): the command
comes from the port. -/
def step (s : State) : Host.Outcome State Fault Refusal :=
  match s.takeCommand with
  | none => awaitCommand s
  | some (c, t) =>
    match decode c with
    | .error why => refuseWord why
    | .ok i => exec i t

/-- Present the command with the given numbered bits as the very next one (log 7). -/
def State.withFetchWord (s : State) (nbits w : Nat) : State :=
  s.setPort (tableCommand nbits w :: s.port)

end Sys2Proof.Machine
end

