-- ==== Sys2Proof/Machine/Sequences.lean ====
section
/-! DEFINITION. Sequences of commands, the pseudo-instructions (R67), and the whole-sequence functions of the source:
`stuff` (R83 to R85), `destuff` (R102), `extract` (R122). -/

namespace Sys2Proof.Machine

/-! ## Running commands -/

/-- The commands of a list one after the other, stopping at the first that is refused (R52, R181). -/
def runCommands : List Instr → State → Outcome
  | [], s => .next s
  | i :: rest, s =>
    match exec i s with
    | .next t => runCommands rest t
    | .fault r => .fault r
    | .refused r => .refused r

/-- The pseudo-instructions (R67). -/
inductive Pseudo where
  | stfBits (bs : List Bit)
  | dstBits (bs : List Bit)
  | ffxBits (bs : List Bit)
  | rxBits (bs : List Bit)
  | stuff (R : List Bit) (L : Nat)
  | destuff (B : List Bit)
  | extract (Cs : List Bit)
  | decode (B : List Bit)
  deriving DecidableEq, Repr

/-- Their expansions (R67). -/
def Pseudo.expand : Pseudo → List Instr
  | .stfBits bs => bs.map .stfBit
  | .dstBits bs => bs.map .dstBit
  | .ffxBits bs => bs.map .ffxBit
  | .rxBits bs => bs.map .rxBit
  | .stuff R L => .stfInit L :: R.map .stfBit
  | .destuff B => .dstInit :: B.map .dstBit
  | .extract Cs => .ffxInit :: Cs.map .ffxBit
  | .decode B => .rxInit :: B.map .rxBit

/-! ## The stuffer over a sequence -/

/-- The stuffer after a pass over `R` with protected length `L`, from the value that `last` happens to have at the
start (R83). -/
def stuffPass (inclusive : Bool) (L : Nat) (unspecified : Bit) (R : List Bit) : Stf :=
  R.foldl (Stf.takeBit inclusive) (Stf.start L unspecified)

/-- The three results of `stuff(R, L)` (R83). -/
structure Stuffed where
  S : List Bit
  P : List Nat
  M : List Nat
  deriving DecidableEq, Repr

/-- `stuff(R, L)`: the content of `(S, P, M)` after the pass (R83). -/
def stuff (inclusive : Bool) (R : List Bit) (L : Nat) : Stuffed :=
  let u := stuffPass inclusive L (Config.freeBit 0) R
  { S := u.S, P := u.P, M := u.M }

/-- The variables of LA's loop (R84). -/
structure LoopState where
  S : List Bit
  P : List Nat
  last : Bit
  run : Nat
  i : Nat
  deriving DecidableEq, Repr

/-- One iteration of LA's loop: an insertion, which does not advance `i`, or the bit `b = R[i]` (R84). -/
def LoopState.iterate (inclusive : Bool) (L : Nat) (b : Bit) (v : LoopState) : LoopState :=
  if within inclusive v.i L ∧ v.run = runMax then
    { v with S := v.S ++ [!v.last], P := v.P ++ [(v.S ++ [!v.last]).length - 1], last := !v.last, run := 1 }
  else if b = v.last then { v with S := v.S ++ [b], run := v.run + 1, i := v.i + 1 }
  else { v with S := v.S ++ [b], run := 1, last := b, i := v.i + 1 }

/-- LA's `while i < len(R)`, for at most the given number of iterations (R84). -/
def stuffLoopFrom (inclusive : Bool) (R : List Bit) (L : Nat) : Nat → LoopState → LoopState
  | 0, v => v
  | fuel + 1, v =>
    match R[v.i]? with
    | some b => stuffLoopFrom inclusive R L fuel (v.iterate inclusive L b)
    | none => v

/-- `stuff_loop(R, L)`, LA's own form of the stuffer: `(S, P)` (R84). Two iterations a bit are enough, since an
insertion leaves `run = 1`. -/
def stuffLoop (inclusive : Bool) (R : List Bit) (L : Nat) : List Bit × List Nat :=
  match R with
  | [] => ([], [])
  | b :: _ =>
    let v := stuffLoopFrom inclusive R L (2 * R.length) { S := [b], P := [], last := b, run := 1, i := 1 }
    (v.S, v.P)

/-- The first index from `j` on that is not a recorded stuff position, looking at most `fuel` indices ahead (R85). -/
def skipStuff (P : List Nat) : Nat → Nat → Nat
  | 0, j => j
  | fuel + 1, j => if j ∈ P then skipStuff P fuel (j + 1) else j

/-- LA's construction of the map from the stuff positions, for `n` unstuffed bits from stuffed index `j` on (R85). -/
def mapSkipping (P : List Nat) : Nat → Nat → List Nat
  | 0, _ => []
  | n + 1, j =>
    let k := skipStuff P P.length j
    k :: mapSkipping P n (k + 1)

/-- A stuffed sequence without the bits at the positions in `P` (R88). -/
def deleteAt (S : List Bit) (P : List Nat) : List Bit :=
  (S.zipIdx.filter (fun x => decide (x.2 ∉ P))).map Prod.fst

/-! ## The destuffer and the extractor over a sequence -/

/-- The destuffer after a pass over `B` (R102). -/
def destuffPass (unspecified : Bit) (B : List Bit) : Dst :=
  B.foldl Dst.takeBit (Dst.start unspecified)

/-- `destuff(B)`: the content of `C` after the pass (R102). -/
def destuff (B : List Bit) : List Bit := (destuffPass (Config.freeBit 1) B).C

/-- The extractor after a pass over `Cs` (R122). -/
def extractPass (Cs : List Bit) : Ffx := Cs.foldl Ffx.takeBit Ffx.start

/-- The data bytes of `extract`: `m` of them from byte `k` on, stopping at the first not fully in (R122). -/
def extractData (Cs : List Bit) : Nat → Nat → List (BitVec 8)
  | 0, _ => []
  | m + 1, k =>
    if 19 + 8 * (k + 1) ≤ Cs.length then
      BitVec.ofNat 8 (uint (slice Cs (19 + 8 * k) (27 + 8 * k))) :: extractData Cs m (k + 1)
    else []

/-- `extract(Cs)`, as the spec writes it out over the whole sequence (R122). -/
def extract (Cs : List Bit) : DecodedFrame :=
  let dlc := uint (slice Cs 15 19)
  { id := if 12 ≤ Cs.length then some (BitVec.ofNat 11 (uint (slice Cs 1 12))) else none
    dlc := if 19 ≤ Cs.length then some (BitVec.ofNat 4 dlc) else none
    data := if 19 ≤ Cs.length then some (extractData Cs (min dlc nData) 0) else none
    crc := if 98 ≤ Cs.length then some (BitVec.ofNat 15 (uint (slice Cs 83 98))) else none }

end Sys2Proof.Machine
end

