-- ==== Sys2Proof/Safety.lean ====
section
/-! DEFINITION. What the statements are about: the invariant of every command boundary (R31, R21, R15), the extractor in
step with the destuffer (R141), what a host can observe (R166), and a sequence without a stuff violation (R87). -/

namespace Sys2Proof.Machine

/-! ## The invariant -/

/-- The number of equal bits a sequence ends with (R12). -/
def trailingRun (s : List Bit) : Nat :=
  match s.reverse with
  | [] => 0
  | b :: rest => 1 + (rest.takeWhile (· == b)).length

/-- The stuffer at a command boundary: the bounds, lengths and the enumeration of R31; `scnt = rcnt + len(P)` (R15);
`F` marks exactly `P` (R16); `run` and `last` describe the end of `S` (R12, R13); the registers fit `IDX_W` bits
(R11, R14, R15). -/
structure Stf.Inv (cfg : Config) (u : Stf) : Prop where
  run_le : u.run ≤ runMax
  run_zero_iff_scnt : u.run = 0 ↔ u.scnt = 0
  scnt_zero_iff_rcnt : u.scnt = 0 ↔ u.rcnt = 0
  length_S : u.S.length = u.scnt
  length_F : u.F.length = u.scnt
  length_M : u.M.length = u.rcnt
  scnt_eq : u.scnt = u.rcnt + u.P.length
  P_increasing : u.P.Pairwise (· < ·)
  M_increasing : u.M.Pairwise (· < ·)
  enumerate : (u.P ++ u.M).Perm (List.range u.scnt)
  flags_mark : u.F = (List.range u.scnt).map (fun j => decide (j ∈ u.P))
  run_eq : u.run = min (trailingRun u.S) runMax
  last_eq : 1 ≤ u.run → u.S.getLast? = some u.last
  plen_fits : cfg.fits u.plen = true
  scnt_fits : cfg.fits u.scnt = true

/-- The destuffer at a command boundary (R31, R21), its counters within `IDX_W` bits (R19). -/
structure Dst.Inv (cfg : Config) (u : Dst) : Prop where
  run_le : u.run ≤ runMax
  run_zero_iff_icnt : u.run = 0 ↔ u.icnt = 0
  length_C : u.ccnt = u.C.length
  length_D : u.icnt = u.D.length
  drops : u.icnt = u.ccnt + u.D.count true
  icnt_fits : cfg.fits u.icnt = true

/-- The extractor at a command boundary: exactly the cells below `min(clen, 108)` hold a value, in index order
(R22, R23). -/
structure Ffx.Inv (cfg : Config) (u : Ffx) : Prop where
  cells_written : u.cbuf.map Prod.fst = List.range (min u.clen frameBits)
  clen_fits : cfg.fits u.clen = true

/-- The invariant of the whole block. -/
structure State.Inv (s : State) : Prop where
  stf : s.stf.Inv s.cfg
  dst : s.dst.Inv s.cfg
  ffx : s.ffx.Inv s.cfg

/-! ## The chain -/

/-- The extractor holds what the destuffer has emitted: `FFX.clen = DST.ccnt`, and `FFX.cbuf` is the first
`min(DST.ccnt, 108)` bits of `C` (R141). -/
structure State.Chained (s : State) : Prop where
  clen_eq : s.ffx.clen = s.dst.ccnt
  cbuf_eq : s.ffx.cbuf.map Prod.snd = s.dst.C.take frameBits

/-! ## What can be observed -/

/-- Two stuffers alike but for a `last` that no rule reads (R13, R166). -/
structure Stf.Alike (u v : Stf) : Prop where
  plen : u.plen = v.plen
  run : u.run = v.run
  rcnt : u.rcnt = v.rcnt
  scnt : u.scnt = v.scnt
  S : u.S = v.S
  F : u.F = v.F
  P : u.P = v.P
  M : u.M = v.M
  last : u.run ≠ 0 → u.last = v.last

/-- Two destuffers alike but for a `last` that no rule reads (R18, R166). -/
structure Dst.Alike (u v : Dst) : Prop where
  run : u.run = v.run
  icnt : u.icnt = v.icnt
  ccnt : u.ccnt = v.ccnt
  C : u.C = v.C
  D : u.D = v.D
  last : u.run ≠ 0 → u.last = v.last

/-- Two extractors alike but for the cells that no output reads (R22, R166). -/
structure Ffx.Alike (u v : Ffx) : Prop where
  clen : u.clen = v.clen
  cells : ∀ a, a < min u.clen frameBits → u.cbuf.read a = v.cbuf.read a

/-- Two states alike but for what the spec leaves unspecified; how many free values were drawn does not matter. -/
structure State.Alike (s t : State) : Prop where
  cfg : s.cfg = t.cfg
  port : s.port = t.port
  stf : s.stf.Alike t.stf
  dst : s.dst.Alike t.dst
  ffx : s.ffx.Alike t.ffx

/-- The same outcome, up to a relation between the next states. -/
def sameOutcome (rel : State → State → Prop) : Outcome → Outcome → Prop
  | .next s, .next t => rel s t
  | .fault r, .fault q => r = q
  | .refused r, .refused q => r = q
  | _, _ => False

/-! ## Stuff violations -/

/-- No six identical consecutive bits anywhere in the sequence (R87). -/
def NoRunOfSix (s : List Bit) : Prop := ∀ b : Bit, ¬ List.replicate 6 b <:+: s

end Sys2Proof.Machine
end

