-- ==== Sys2Proof/WellFormed.lean ====
section
/-! DEFINITION. Which commands a host can present to a block of a given `IDX_W` (R62). -/

namespace Sys2Proof

/-- The operand of `STF.INIT` is an unsigned `IDX_W`-bit integer, any value allowed (R62, R80); the other commands
have no operand that could be out of range. -/
def Instr.wellFormed (cfg : Config) : Instr → Bool
  | .stfInit L => cfg.fits L
  | .stfBit _ => true
  | .dstInit => true
  | .dstBit _ => true
  | .ffxInit => true
  | .ffxBit _ => true
  | .rxInit => true
  | .rxBit _ => true

end Sys2Proof
end

