-- ==== Sys2Proof/Certificates/Slice0/Obligations.lean ====
section
/-! DEFINITION. The statements about the block, one definition each. Unless a statement says otherwise it holds for both
values of `PLEN_INCLUSIVE` and for every `IDX_W`, the unbounded one included. None rests on the value of a bit that the
spec leaves unspecified. -/

open Sys2Proof Sys2Proof.Machine

/-! ## The command word -/

/-- A few command words as `95_test_vectors.md` section 6 writes them, and two of its reserved words (R66). -/
def Obligations.ProgramWordsDecode : Prop :=
  decode ⟨0x00#8, 34⟩ = .ok (.stfInit 34) ∧ decode ⟨0x11#8, 0⟩ = .ok (.stfBit true) ∧
  decode ⟨0x40#8, 0⟩ = .ok .dstInit ∧ decode ⟨0x50#8, 0⟩ = .ok (.dstBit false) ∧
  decode ⟨0x80#8, 0⟩ = .ok .ffxInit ∧ decode ⟨0x91#8, 0⟩ = .ok (.ffxBit true) ∧
  decode ⟨0xC0#8, 0⟩ = .ok .rxInit ∧ decode ⟨0xD0#8, 0⟩ = .ok (.rxBit false) ∧
  decode ⟨0x01#8, 0⟩ = .error .bitOnInit ∧ decode ⟨0xA0#8, 0⟩ = .error .opField

/-- R63: each of the eight rows decodes exactly the words with `(w AND mask) = match`, with its operand; no word belongs
to two rows; the words that decode are the twelve legal ones. -/
def Obligations.LegalWordsMatchTheirRows : Prop :=
  ∀ c : Command,
    (∀ L, decode c = .ok (.stfInit L) ↔ (c.cmd &&& 0xFF#8 = 0x00#8 ∧ L = c.arg)) ∧
    (∀ b, decode c = .ok (.stfBit b) ↔ (c.cmd &&& 0xFE#8 = 0x10#8 ∧ b = c.cmd.getLsbD 0)) ∧
    (decode c = .ok .dstInit ↔ c.cmd &&& 0xFF#8 = 0x40#8) ∧
    (∀ b, decode c = .ok (.dstBit b) ↔ (c.cmd &&& 0xFE#8 = 0x50#8 ∧ b = c.cmd.getLsbD 0)) ∧
    (decode c = .ok .ffxInit ↔ c.cmd &&& 0xFF#8 = 0x80#8) ∧
    (∀ b, decode c = .ok (.ffxBit b) ↔ (c.cmd &&& 0xFE#8 = 0x90#8 ∧ b = c.cmd.getLsbD 0)) ∧
    (decode c = .ok .rxInit ↔ c.cmd &&& 0xFF#8 = 0xC0#8) ∧
    (∀ b, decode c = .ok (.rxBit b) ↔ (c.cmd &&& 0xFE#8 = 0xD0#8 ∧ b = c.cmd.getLsbD 0)) ∧
    (opcodeRows.filter (fun r => c.cmd &&& r.2 == r.1)).length ≤ 1 ∧
    ((∃ i, decode c = .ok i) ↔ c.cmd ∈ legalWords)

/-- R64: a step refuses exactly the words with `op` = 10 or 11, `zero` not 000, or `b` = 1 on an INIT; they are 244 of
the 256. -/
def Obligations.ReservedWordsAreRefused : Prop :=
  (∀ (s : State) (c : Command) (rest : List Command), s.port = c :: rest →
    ((∃ why, step s = .refused (.reservedWord why)) ↔
      (c.cmd.extractLsb' 4 2 = 0b10#2 ∨ c.cmd.extractLsb' 4 2 = 0b11#2 ∨ c.cmd.extractLsb' 1 3 ≠ 0b000#3 ∨
        (c.cmd.extractLsb' 4 2 = 0b00#2 ∧ c.cmd.getLsbD 0 = true)))) ∧
  ((List.range 256).filter (fun w => !legalWords.contains (BitVec.ofNat 8 w))).length = 244

/-- Decode and encode agree in both directions: every command, with every operand, comes back from its word; and a word
that decodes is the word of the command it decodes to, with the operand `arg` of `STF.INIT`. -/
def Obligations.DecodeAndEncodeAgree : Prop :=
  (∀ i : Instr, decode (encode i) = .ok i) ∧
  (∀ (c : Command) (i : Instr), decode c = .ok i →
    (encode i).cmd = c.cmd ∧ ∀ L, i = .stfInit L → L = c.arg)

/-! ## Steps -/

/-- A step takes the next command from the port and is `exec` of what it decodes to (R52, R61). -/
def Obligations.StepRunsDecodedCommand : Prop :=
  ∀ (s : State) (c : Command) (rest : List Command) (i : Instr),
    s.port = c :: rest → decode c = .ok i → step s = exec i { s with port := rest }

/-- The model's choice (log 8, DESIGN CHOICE): a step with no command at the port changes nothing. -/
def Obligations.StepWithoutCommandChangesNothing : Prop :=
  ∀ s : State, s.port = [] → step s = .next s

/-- Presenting the words of a list of commands at the port and stepping once for each is running the commands in the
order issued, whatever waits behind them (R52). -/
def Obligations.PortRunsCommandsInOrder : Prop :=
  ∀ (is : List Instr) (s : State) (rest : List Command),
    Sys2Proof.core.run is.length ({ s with port := is.map encode ++ rest } : State) =
      runCommands is { s with port := rest }

/-! ## Reset -/

/-- R165: `PLEN`, the `run` registers and the counters are 0 after reset and the streams empty, for any parameters;
`State.reset` is the case of the model's default parameters (log 2). The two `last` registers and the cells, which R166
leaves unspecified, are no part of it. -/
def Obligations.ResetLeavesUnitsInitialised : Prop :=
  (∀ cfg : Config,
    let s := State.resetWith cfg
    s.stf.plen = 0 ∧ s.stf.run = 0 ∧ s.stf.rcnt = 0 ∧ s.stf.scnt = 0 ∧
    s.stf.S = [] ∧ s.stf.F = [] ∧ s.stf.P = [] ∧ s.stf.M = [] ∧
    s.dst.run = 0 ∧ s.dst.icnt = 0 ∧ s.dst.ccnt = 0 ∧ s.dst.C = [] ∧ s.dst.D = [] ∧
    s.ffx.clen = 0) ∧
  State.reset = State.resetWith State.reset.cfg

/-- The output rows of the reset table (`10_state.md` section 7): after reset, and equally after the unit's INIT, every
status output is absent or 0. -/
def Obligations.NoOutputAfterResetOrInit : Prop :=
  ∀ (cfg : Config) (s : State) (u : Ffx),
    (u = (State.resetWith cfg).ffx ∨ (∃ t, exec .ffxInit s = .next t ∧ u = t.ffx) ∨
      (∃ t, exec .rxInit s = .next t ∧ u = t.ffx)) →
    u.idValid = false ∧ u.dlcValid = false ∧ u.crcValid = false ∧ u.ndata = 0 ∧
    (∀ k, u.dataValid k = false ∧ u.data k = none) ∧ u.id = none ∧ u.dlc = none ∧ u.crc = none

/-- The INIT commands restore their own unit to its reset state, `RX.INIT` two of them; `STF.INIT` loads `PLEN`. Only
the `last` registers, which stay unspecified, are left open. -/
def Obligations.InitRestoresResetState : Prop :=
  ∀ (s : State) (L : Nat),
    (s.cfg.fits L = true →
      ∃ t, exec (.stfInit L) s = .next t ∧
        t.stf = { (State.resetWith s.cfg).stf with plen := L, last := t.stf.last }) ∧
    (∃ t, exec .dstInit s = .next t ∧ t.dst = { (State.resetWith s.cfg).dst with last := t.dst.last }) ∧
    (∃ t, exec .ffxInit s = .next t ∧ t.ffx = (State.resetWith s.cfg).ffx) ∧
    (∃ t, exec .rxInit s = .next t ∧ t.dst = { (State.resetWith s.cfg).dst with last := t.dst.last } ∧
      t.ffx = (State.resetWith s.cfg).ffx)

/-! ## The stuffer's commands -/

/-- R80: `STF.INIT L` completes for every operand of `IDX_W` bits, in any state; the frame is everything outside STF. -/
def Obligations.StfInitStartsPass : Prop :=
  ∀ (s : State) (L : Nat), s.cfg.fits L = true →
    ∃ t, exec (.stfInit L) s = .next t ∧
      t.stf.plen = L ∧ t.stf.run = 0 ∧ t.stf.rcnt = 0 ∧ t.stf.scnt = 0 ∧
      t.stf.S = [] ∧ t.stf.F = [] ∧ t.stf.P = [] ∧ t.stf.M = [] ∧
      t.dst = s.dst ∧ t.ffx = s.ffx ∧ t.cfg = s.cfg ∧ t.port = s.port

/-- The model's choice (log 10, DESIGN CHOICE): an operand that `IDX_W` bits cannot hold is refused. -/
def Obligations.StfInitRefusesWideOperand : Prop :=
  ∀ (s : State) (L w : Nat), s.cfg.idxW = some w → 2 ^ w ≤ L → exec (.stfInit L) s = .refused .operandTooWide

/-- R81 with R82: `STF.BIT b` completes whenever its counters fit. If the run is five and the raw index is within the
protected length, the complement goes out first, as a stuff bit; else `b` alone. Either way `b` is emitted, mapped and
counted into the run. The frame is `PLEN` and everything outside STF. -/
def Obligations.StfBitEmitsStuffBitWhenDue : Prop :=
  ∀ (s : State) (b : Bit), s.cfg.fits (s.stf.scnt + 2) = true →
    ∃ t, exec (.stfBit b) s = .next t ∧
      (let within := if s.cfg.plenInclusive then s.stf.rcnt ≤ s.stf.plen else s.stf.rcnt < s.stf.plen
       (s.stf.run = 5 ∧ within →
          t.stf.S = s.stf.S ++ [!s.stf.last, b] ∧ t.stf.F = s.stf.F ++ [true, false] ∧
          t.stf.P = s.stf.P ++ [s.stf.scnt] ∧ t.stf.M = s.stf.M ++ [s.stf.scnt + 1] ∧
          t.stf.scnt = s.stf.scnt + 2 ∧ t.stf.run = if b = s.stf.last then 1 else 2) ∧
       (¬(s.stf.run = 5 ∧ within) →
          t.stf.S = s.stf.S ++ [b] ∧ t.stf.F = s.stf.F ++ [false] ∧
          t.stf.P = s.stf.P ∧ t.stf.M = s.stf.M ++ [s.stf.scnt] ∧
          t.stf.scnt = s.stf.scnt + 1 ∧
          t.stf.run = if 1 ≤ s.stf.run ∧ b = s.stf.last then min (s.stf.run + 1) 5 else 1)) ∧
      t.stf.last = b ∧ t.stf.rcnt = s.stf.rcnt + 1 ∧ t.stf.plen = s.stf.plen ∧
      t.dst = s.dst ∧ t.ffx = s.ffx ∧ t.cfg = s.cfg ∧ t.port = s.port

/-- What the two due conditions foretell (`10_state.md` section 5): `stuff_due` that the next `STF.BIT` emits two
symbols, `drop_due` that the next `DST.BIT` emits nothing and ignores its operand. That the operand does not matter for
the state afterwards is the spec's own decision D9, which `93_implementation_defined.md` U2 marks as inferred (log 15,
DEDUCED); it would be false of a block that counts the dropped bit with its real value. -/
def Obligations.DueConditionsForetellNextBit : Prop :=
  ∀ (s t : State) (b : Bit),
    (exec (.stfBit b) s = .next t →
      t.stf.S.length = s.stf.S.length + if s.stf.stuffDue s.cfg.plenInclusive then 2 else 1) ∧
    (exec (.dstBit b) s = .next t →
      t.dst.C.length = s.dst.C.length + if s.dst.dropDue then 0 else 1) ∧
    (s.dst.dropDue = true → exec (.dstBit true) s = exec (.dstBit false) s) ∧
    (s.stf.stuffDue s.cfg.plenInclusive = true ↔
      s.stf.run = 5 ∧ if s.cfg.plenInclusive then s.stf.rcnt ≤ s.stf.plen else s.stf.rcnt < s.stf.plen) ∧
    (s.dst.dropDue = true ↔ s.dst.run = 5)

/-! ## The destuffer's commands -/

/-- R100: `DST.INIT` completes in any state; the frame is everything outside DST. -/
def Obligations.DstInitStartsPass : Prop :=
  ∀ s : State,
    ∃ t, exec .dstInit s = .next t ∧
      t.dst.run = 0 ∧ t.dst.icnt = 0 ∧ t.dst.ccnt = 0 ∧ t.dst.C = [] ∧ t.dst.D = [] ∧
      t.stf = s.stf ∧ t.ffx = s.ffx ∧ t.cfg = s.cfg ∧ t.port = s.port

/-- `DST.BIT b` completes whenever its counter fits. After a run of five the bit is dropped whatever its value, and
`last` becomes the complement of the old `last`: the spec's own decision D9, which `93_implementation_defined.md` U2
marks as inferred (log 15, DEDUCED). Any other bit is kept and counted. The frame is everything outside DST. -/
def Obligations.DstBitKeepsOrDrops : Prop :=
  ∀ (s : State) (b : Bit), s.cfg.fits (s.dst.icnt + 1) = true →
    ∃ t, exec (.dstBit b) s = .next t ∧
      (s.dst.run = 5 →
        t.dst.C = s.dst.C ∧ t.dst.D = s.dst.D ++ [true] ∧ t.dst.ccnt = s.dst.ccnt ∧
        t.dst.run = 1 ∧ t.dst.last = !s.dst.last) ∧
      (s.dst.run ≠ 5 →
        t.dst.C = s.dst.C ++ [b] ∧ t.dst.D = s.dst.D ++ [false] ∧ t.dst.ccnt = s.dst.ccnt + 1 ∧
        t.dst.run = (if 1 ≤ s.dst.run ∧ b = s.dst.last then s.dst.run + 1 else 1) ∧ t.dst.last = b) ∧
      t.dst.icnt = s.dst.icnt + 1 ∧
      t.stf = s.stf ∧ t.ffx = s.ffx ∧ t.cfg = s.cfg ∧ t.port = s.port

/-! ## The extractor's commands -/

/-- R115: `FFX.INIT` completes in any state; the frame is everything outside FFX. -/
def Obligations.FfxInitStartsPass : Prop :=
  ∀ s : State,
    ∃ t, exec .ffxInit s = .next t ∧
      t.ffx.clen = 0 ∧ t.ffx.idValid = false ∧ t.ffx.dlcValid = false ∧ t.ffx.crcValid = false ∧ t.ffx.ndata = 0 ∧
      (∀ k, t.ffx.dataValid k = false) ∧
      t.stf = s.stf ∧ t.dst = s.dst ∧ t.cfg = s.cfg ∧ t.port = s.port

/-- R116: `FFX.BIT b` completes whenever its counter fits. It stores `b` at clean index `clen` while `clen < 108`, and
counts it always. Every other cell reads as before (all of them once `clen` has reached 108), and the rest of the
frame is everything outside FFX. -/
def Obligations.FfxBitStoresAtClen : Prop :=
  ∀ (s : State) (b : Bit), s.cfg.fits (s.ffx.clen + 1) = true →
    ∃ t, exec (.ffxBit b) s = .next t ∧
      t.ffx.clen = s.ffx.clen + 1 ∧
      (s.ffx.clen < 108 → t.ffx.cbuf.read s.ffx.clen = some b) ∧
      (∀ a, (s.ffx.clen < 108 → a ≠ s.ffx.clen) → t.ffx.cbuf.read a = s.ffx.cbuf.read a) ∧
      t.stf = s.stf ∧ t.dst = s.dst ∧ t.cfg = s.cfg ∧ t.port = s.port

/-! ## The chain's commands -/

/-- R140: `RX.INIT` completes in any state and is `DST.INIT` followed by `FFX.INIT`; STF is not touched. -/
def Obligations.RxInitIsDstInitThenFfxInit : Prop :=
  ∀ s : State,
    ∃ m t, exec .dstInit s = .next m ∧ exec .ffxInit m = .next t ∧ exec .rxInit s = .next t ∧
      t.dst.run = 0 ∧ t.dst.icnt = 0 ∧ t.dst.ccnt = 0 ∧ t.dst.C = [] ∧ t.dst.D = [] ∧ t.ffx.clen = 0 ∧
      t.ffx.idValid = false ∧ t.ffx.dlcValid = false ∧ t.ffx.crcValid = false ∧ (∀ k, t.ffx.dataValid k = false) ∧
      t.stf = s.stf ∧ t.cfg = s.cfg ∧ t.port = s.port

/-- R141: `RX.BIT b` completes when both counters fit: as `DST.BIT b` alone when the bit is dropped, else as `DST.BIT b`
followed by `FFX.BIT b`; it is refused when either of them would be. A pass started by `RX.INIT` and continued by
`RX.BIT` keeps `clen = ccnt` and the buffer equal to the first `min(ccnt, 108)` bits of `C`. -/
def Obligations.RxBitIsDstBitThenFfxBit : Prop :=
  (∀ (s : State) (b : Bit),
    s.cfg.fits (s.dst.icnt + 1) = true → s.cfg.fits (s.ffx.clen + 1) = true →
      ∃ m t, exec (.dstBit b) s = .next m ∧ exec (.rxBit b) s = .next t ∧
        (s.dst.run = 5 → t = m ∧ t.ffx = s.ffx) ∧
        (s.dst.run ≠ 5 → exec (.ffxBit b) m = .next t) ∧
        t.stf = s.stf ∧ t.cfg = s.cfg ∧ t.port = s.port) ∧
  (∀ (s : State) (b : Bit),
    (exec (.dstBit b) s = .refused .counterOverflow ∨ exec (.ffxBit b) s = .refused .counterOverflow) →
      exec (.rxBit b) s = .refused .counterOverflow) ∧
  (∀ s t : State, exec .rxInit s = .next t → t.Chained) ∧
  (∀ (s t : State) (b : Bit), s.Inv → s.Chained → exec (.rxBit b) s = .next t → t.Chained)

/-! ## Refusals and frames over all commands -/

/-- R159: when the BIT commands are refused; with unbounded counters none ever is. -/
def Obligations.CounterOverflowIsRefused : Prop :=
  (∀ (s : State) (b : Bit) (w : Nat), s.cfg.idxW = some w → s.Inv →
    (exec (.stfBit b) s = .refused .counterOverflow ↔ 2 ^ w - 1 < s.stf.scnt + 2) ∧
    (exec (.dstBit b) s = .refused .counterOverflow ↔ s.dst.icnt = 2 ^ w - 1) ∧
    (exec (.ffxBit b) s = .refused .counterOverflow ↔ s.ffx.clen = 2 ^ w - 1) ∧
    (exec (.rxBit b) s = .refused .counterOverflow ↔ s.dst.icnt = 2 ^ w - 1 ∨ s.ffx.clen = 2 ^ w - 1)) ∧
  (∀ (s : State) (i : Instr), s.cfg.idxW = none → exec i s ≠ .refused .counterOverflow)

/-- Every command a host can present has its effect or is refused for counter overflow, in every state; nothing else
stops it, and an INIT is never refused. -/
def Obligations.EveryCommandCompletesOrOverflows : Prop :=
  ∀ (i : Instr) (s : State), i.wellFormed s.cfg = true →
    (∃ t, exec i s = .next t) ∨
    (exec i s = .refused .counterOverflow ∧ ∃ b, i = .stfBit b ∨ i = .dstBit b ∨ i = .ffxBit b ∨ i = .rxBit b)

/-- Each command writes its own unit only, whichever state it runs in; the parameters and the waiting commands are
written by none, and `PLEN` by `STF.INIT` alone. -/
def Obligations.CommandsWriteOnlyTheirUnit : Prop :=
  ∀ (i : Instr) (s t : State), exec i s = .next t →
    t.cfg = s.cfg ∧ t.port = s.port ∧
    (t.stf ≠ s.stf → (∃ L, i = .stfInit L) ∨ ∃ b, i = .stfBit b) ∧
    (t.stf.plen ≠ s.stf.plen → ∃ L, i = .stfInit L) ∧
    (t.dst ≠ s.dst → i = .dstInit ∨ i = .rxInit ∨ ∃ b, i = .dstBit b ∨ i = .rxBit b) ∧
    (t.ffx ≠ s.ffx → i = .ffxInit ∨ i = .rxInit ∨ ∃ b, i = .ffxBit b ∨ i = .rxBit b)

/-- R50: every space is append-only until the unit's INIT: a stream only grows at its end, and a written cell keeps its
bit. -/
def Obligations.SpacesAreAppendOnly : Prop :=
  ∀ (i : Instr) (s t : State), s.Inv → exec i s = .next t →
    ((∀ L, i ≠ .stfInit L) →
      s.stf.S <+: t.stf.S ∧ s.stf.F <+: t.stf.F ∧ s.stf.P <+: t.stf.P ∧ s.stf.M <+: t.stf.M) ∧
    (i ≠ .dstInit → i ≠ .rxInit → s.dst.C <+: t.dst.C ∧ s.dst.D <+: t.dst.D) ∧
    (i ≠ .ffxInit → i ≠ .rxInit →
      ∀ a v, s.ffx.cbuf.read a = some v → t.ffx.cbuf.read a = some v)

/-! ## The invariant -/

/-- The invariant holds after reset, for any parameters. -/
def Obligations.ResetMeetsTheInvariant : Prop := ∀ cfg : Config, (State.resetWith cfg).Inv

/-- Every step keeps the invariant, from any state that meets it, reached by a run or not. -/
def Obligations.StepKeepsTheInvariant : Prop :=
  ∀ s t : State, s.Inv → step s = .next t → t.Inv

/-- R31, R21, R15: at every command boundary of every run from reset the invariant holds, whatever the host presents. -/
def Obligations.EveryRunMeetsTheInvariant : Prop :=
  ∀ (cfg : Config) (port : List Command) (n : Nat) (t : State),
    Sys2Proof.core.run n ({ State.resetWith cfg with port := port } : State) = .next t → t.Inv

/-- The buffer keeps its canonical form in every step from a state that meets the invariant: clean indices strictly
rising, none at 108 or above. -/
def Obligations.BufferStaysCanonical : Prop :=
  ∀ s t : State, s.Inv → step s = .next t → Cells.wf t.ffx.cbuf = true

/-! ## Status outputs -/

/-- R117: `id` appears with the twelfth clean bit, and its bits are the cells 1..11, the lowest index the most
significant; cell 0 has no part in it. -/
def Obligations.IdIsCleanBitsOneToEleven : Prop :=
  ∀ (cfg : Config) (u : Ffx), u.Inv cfg →
    (u.idValid = true ↔ 12 ≤ u.clen) ∧
    (u.clen < 12 → u.id = none) ∧
    (12 ≤ u.clen → ∃ v : BitVec 11, u.id = some v ∧
      ∀ i, i < 11 → u.cbuf.read (1 + i) = some (v.getLsbD (10 - i)))

/-- R118: `dlc` appears with the nineteenth clean bit and is the cells 15..18, any of the sixteen values. -/
def Obligations.DlcIsCleanBitsFifteenToEighteen : Prop :=
  ∀ (cfg : Config) (u : Ffx), u.Inv cfg →
    (u.dlcValid = true ↔ 19 ≤ u.clen) ∧
    (u.clen < 19 → u.dlc = none) ∧
    (19 ≤ u.clen → ∃ v : BitVec 4, u.dlc = some v ∧
      ∀ i, i < 4 → u.cbuf.read (15 + i) = some (v.getLsbD (3 - i)))

/-- R119, R120: how many data bytes there are, and which cells each of them is. -/
def Obligations.DataBytesFollowDlcAndArrival : Prop :=
  ∀ (cfg : Config) (u : Ffx), u.Inv cfg →
    (u.clen < 19 → u.ndata = 0) ∧
    (∀ d, u.dlc = some d → u.ndata = min (min d.toNat 8) ((min u.clen 108 - 19) / 8)) ∧
    (∀ k, u.dataValid k = true ↔ k < u.ndata) ∧
    (∀ k, u.dataValid k = true ↔ 19 + 8 * (k + 1) ≤ u.clen ∧ ∃ d, u.dlc = some d ∧ k < min d.toNat 8) ∧
    (∀ k, u.ndata ≤ k → u.data k = none) ∧
    (∀ k, k < u.ndata → ∃ v : BitVec 8, u.data k = some v ∧
      ∀ i, i < 8 → u.cbuf.read (19 + 8 * k + i) = some (v.getLsbD (7 - i)))

/-- R121: `crc` appears with the ninety-eighth clean bit and is the cells 83..97, whatever `dlc` is. -/
def Obligations.CrcIsCleanBitsFromEightyThree : Prop :=
  ∀ (cfg : Config) (u : Ffx), u.Inv cfg →
    (u.crcValid = true ↔ 98 ≤ u.clen) ∧
    (u.clen < 98 → u.crc = none) ∧
    (98 ≤ u.clen → ∃ v : BitVec 15, u.crc = some v ∧
      ∀ i, i < 15 → u.cbuf.read (83 + i) = some (v.getLsbD (14 - i)))

/-- R125: the auxiliary output of each row of the field table: available when all its bits are in (for a DATA row, if
the frame claims the byte), with the row's start, width and value. -/
def Obligations.FieldTableOutputs : Prop :=
  ∀ (cfg : Config) (u : Ffx) (f : FrameField), u.Inv cfg →
    (let available := f.start + f.width ≤ u.clen ∧
        ∀ k, f = .data k → ∃ d, u.dlc = some d ∧ k.val < min d.toNat 8
     (¬available → u.fieldBox f = none) ∧
     (available → ∃ v, u.fieldBox f = some ⟨f.start, f.width, v⟩ ∧ v < 2 ^ f.width ∧
       ∀ i, i < f.width → u.cbuf.read (f.start + i) = some (v.testBit (f.width - 1 - i))))

/-- The field table (`20_memory.md` section 3): the nineteen rows, and that the next start offset gives each width. -/
def Obligations.FieldTableRows : Prop :=
  fieldTable.map (fun f => (f.start, f.width)) =
    [(0, 1), (1, 11), (12, 1), (13, 1), (14, 1), (15, 4), (19, 8), (27, 8), (35, 8), (43, 8), (51, 8), (59, 8),
     (67, 8), (75, 8), (83, 15), (98, 1), (99, 1), (100, 1), (101, 7)] ∧
  fieldTable.IsChain (fun f g => f.start + f.width = g.start)

/-- R126: within a pass an output, once valid, stays valid and keeps its value, and `ndata` never decreases. -/
def Obligations.OutputsNeverChangeOnceValid : Prop :=
  ∀ (i : Instr) (s t : State), s.Inv → exec i s = .next t → i ≠ .ffxInit → i ≠ .rxInit →
    (s.ffx.idValid = true → t.ffx.idValid = true) ∧ (s.ffx.dlcValid = true → t.ffx.dlcValid = true) ∧
    (s.ffx.crcValid = true → t.ffx.crcValid = true) ∧
    (∀ k, s.ffx.dataValid k = true → t.ffx.dataValid k = true) ∧
    (∀ v, s.ffx.id = some v → t.ffx.id = some v) ∧
    (∀ v, s.ffx.dlc = some v → t.ffx.dlc = some v) ∧
    (∀ k v, s.ffx.data k = some v → t.ffx.data k = some v) ∧
    (∀ v, s.ffx.crc = some v → t.ffx.crc = some v) ∧
    s.ffx.ndata ≤ t.ffx.ndata

/-! ## The stuff map -/

/-- R51: `raw_of` and `M` are inverse to each other away from the stuff positions, and `M` is defined on the raw
indices consumed and nowhere else. -/
def Obligations.RawIndexMapInverts : Prop :=
  ∀ (cfg : Config) (u : Stf), u.Inv cfg →
    u.M.length = u.rcnt ∧
    (∀ j, j ∈ u.P → u.rawOf j = none) ∧
    (∀ j, j < u.scnt → j ∉ u.P →
      u.rawOf j = some (j - (u.P.filter (· < j)).length) ∧ u.M[j - (u.P.filter (· < j)).length]? = some j) ∧
    (∀ r j, u.M[r]? = some j → j ∉ u.P ∧ u.rawOf j = some r)

/-- The raw index of a symbol that is no stuff bit is the number of earlier symbols that are none; a stuff symbol has
no raw index (`30_encoding.md` section 1, `20_memory.md` section 5; that `F` marks `P` is `10_state.md` section 2). -/
def Obligations.SymbolsNumberTheRawBits : Prop :=
  ∀ (cfg : Config) (u : Stf), u.Inv cfg → ∀ j x,
    (u.symbols[j]? = some (x, false) → u.rawOf j = some (((u.symbols.take j).map Prod.snd).count false)) ∧
    (u.symbols[j]? = some (x, true) → u.rawOf j = none)

/-! ## The stuffer over a sequence -/

/-- R83: `STF.INIT L` followed by `STF.BIT` for each bit of `R` completes and leaves `stuff(R, L)` in the streams. Two
symbols a bit are enough room for the counters. -/
def Obligations.StuffCommandsComputeStuff : Prop :=
  (∀ (s : State) (R : List Bit) (L : Nat), s.cfg.fits L = true → s.cfg.fits (2 * R.length) = true →
    ∃ t, runCommands (Pseudo.stuff R L).expand s = .next t ∧
      t.stf.S = (stuff s.cfg.plenInclusive R L).S ∧ t.stf.P = (stuff s.cfg.plenInclusive R L).P ∧
      t.stf.M = (stuff s.cfg.plenInclusive R L).M ∧ t.dst = s.dst ∧ t.ffx = s.ffx) ∧
  (∀ (inclusive : Bool) (L : Nat), stuff inclusive [] L = { S := [], P := [], M := [] })

/-- R84: LA's own loop computes the same stuffed bits and the same positions. -/
def Obligations.StuffIsTheSourceLoop : Prop :=
  ∀ (inclusive : Bool) (R : List Bit) (L : Nat),
    stuffLoop inclusive R L = ((stuff inclusive R L).S, (stuff inclusive R L).P)

/-- R85: the map is the one LA builds by skipping over the stuff positions, and equally the raw index plus the number of
stuff bits before it. -/
def Obligations.StuffMapSkipsPositions : Prop :=
  ∀ (inclusive : Bool) (R : List Bit) (L : Nat),
    let u := stuff inclusive R L
    u.M = mapSkipping u.P R.length 0 ∧
    ∀ r j, u.M[r]? = some j → j = r + (u.P.filter (· < j)).length

/-- R87: no run of six in the part of the output that is protected, one bit further in the inclusive reading; every
stuff bit follows a run of exactly five and is its complement. -/
def Obligations.ProtectedOutputHasNoRunOfSix : Prop :=
  ∀ (inclusive : Bool) (R : List Bit) (L : Nat),
    let u := stuff inclusive R L
    (∀ j, u.M[min L R.length - 1]? = some j → 1 ≤ min L R.length → NoRunOfSix (u.S.take (j + 1))) ∧
    (∀ j, inclusive = true → u.M[L]? = some j → NoRunOfSix (u.S.take (j + 1))) ∧
    (∀ p, p ∈ u.P → 5 ≤ p ∧ ∃ b, (u.S.drop (p - 5)).take 6 = List.replicate 5 b ++ [!b])

/-- Lengths of the stuffed sequence, the spacing and the number of stuff bits, that a protected length of at most five
(four in the inclusive reading) stuffs nothing, and that deleting the stuff bits gives the input back: the content of
R88. The bound says that five equal bits that end the input get no stuff bit, which is the spec's own decision D7;
`93_implementation_defined.md` U13 marks it as inferred (log 16, DEDUCED). -/
def Obligations.StuffedLengthsAndDeletion : Prop :=
  ∀ (inclusive : Bool) (R : List Bit) (L : Nat),
    let u := stuff inclusive R L
    u.S.length = R.length + u.P.length ∧
    u.P.length ≤ (R.length - 2) / 4 ∧
    (∀ p, p ∈ u.P → 5 ≤ p) ∧ u.P.IsChain (fun p q => p + 5 ≤ q) ∧
    (L ≤ (if inclusive then 4 else 5) → u.P = [] ∧ u.S = R) ∧
    deleteAt u.S u.P = R

/-- R89: later input never changes earlier output of the stuffer. -/
def Obligations.StuffIsStableUnderExtension : Prop :=
  ∀ (inclusive : Bool) (R T : List Bit) (L : Nat),
    (stuff inclusive R L).S <+: (stuff inclusive (R ++ T) L).S ∧
    (stuff inclusive R L).P <+: (stuff inclusive (R ++ T) L).P ∧
    (stuff inclusive R L).M <+: (stuff inclusive (R ++ T) L).M

/-- R82: what `within` is in each reading, and that once false it stays false. The two readings give different results
exactly when a run of five ends on the last protected bit `c = R[L-1]` and a further bit `b = R[L]` follows; then the
inclusive reading puts the stuff bit `NOT c` between the two and the other does not. -/
def Obligations.ReadingsDifferOnlyAtTheBoundary : Prop :=
  (∀ i L : Nat, (within false i L = true ↔ i < L) ∧ (within true i L = true ↔ i ≤ L)) ∧
  (∀ (inclusive : Bool) (i j L : Nat), i ≤ j → within inclusive i L = false → within inclusive j L = false) ∧
  (∀ (R : List Bit) (L : Nat) (last : Bit),
    stuff true R L ≠ stuff false R L ↔ L < R.length ∧ (stuffPass false L last (R.take L)).run = 5) ∧
  (∀ (R : List Bit) (L : Nat) (last c b : Bit), (stuffPass false L last (R.take L)).run = 5 →
    R[L - 1]? = some c → R[L]? = some b →
      (stuff false (R.take (L + 1)) L).S = (stuff false (R.take L) L).S ++ [b] ∧
      (stuff true (R.take (L + 1)) L).S = (stuff true (R.take L) L).S ++ [!c, b] ∧
      (stuff true (R.take L) L).S = (stuff false (R.take L) L).S)

/-- After reset without `STF.INIT` the stuffer copies its bits through unstuffed. -/
def Obligations.StufferIsAWireAfterReset : Prop :=
  ∀ (cfg : Config) (R : List Bit), cfg.fits (2 * R.length) = true →
    ∃ t, runCommands (Pseudo.stfBits R).expand (State.resetWith cfg) = .next t ∧
      t.stf.S = R ∧ t.stf.P = [] ∧ t.stf.M = List.range R.length ∧ t.stf.F = List.replicate R.length false

/-! ## The destuffer over a sequence -/

/-- R102: `DST.INIT` followed by `DST.BIT` for each bit of `B` completes and leaves `destuff(B)` in `C`. -/
def Obligations.DestuffCommandsComputeDestuff : Prop :=
  (∀ (s : State) (B : List Bit), s.cfg.fits B.length = true →
    ∃ t, runCommands (Pseudo.destuff B).expand s = .next t ∧ t.dst.C = destuff B ∧
      t.stf = s.stf ∧ t.ffx = s.ffx) ∧
  destuff [] = []

/-- R103: later input never changes earlier output of the destuffer. -/
def Obligations.DestuffIsStableUnderExtension : Prop :=
  ∀ B T : List Bit, destuff B <+: destuff (B ++ T)

/-- Lengths of the clean sequence, a bound on the number of drops, and the exact number for equal bits. That
number rests on the spec's own decision D9 about the value counted for a dropped bit, which
`93_implementation_defined.md` U2 marks as inferred (log 15, DEDUCED). -/
def Obligations.DestuffedLengths : Prop :=
  (∀ (B : List Bit) (last : Bit),
    let u := destuffPass last B
    u.C.length = B.length - u.D.count true ∧ u.D.count true ≤ (B.length - 1) / 5 ∧
    (∀ p, p ∈ u.dropPositions → 5 ≤ p) ∧ u.dropPositions.IsChain (fun p q => p + 5 ≤ q)) ∧
  (∀ (n : Nat) (b last : Bit), (destuffPass last (List.replicate n b)).D.count true = n / 6)

/-- R108: the dropped positions are the indices that `D` marks, and the map from clean to stuffed indices follows from
them as `M` does from `P` (R51): the clean bit at index `i` is the input bit at the `i`-th index that was not dropped. -/
def Obligations.CleanMapPointsAtKeptBits : Prop :=
  ∀ (B : List Bit) (last : Bit),
    let u := destuffPass last B
    (∀ j, j ∈ u.dropPositions ↔ u.D[j]? = some true) ∧
    u.cleanToStuffed.length = u.C.length ∧
    (∀ i j, u.cleanToStuffed[i]? = some j →
      u.C[i]? = B[j]? ∧ j ∉ u.dropPositions ∧ i = j - (u.dropPositions.filter (· < j)).length) ∧
    (∀ j, j < u.D.length → j ∉ u.dropPositions →
      u.cleanToStuffed[j - (u.dropPositions.filter (· < j)).length]? = some j)

/-- R90, R104: destuffing what was stuffed with `L >= len(R)` gives `R` back, and the dropped indices are the stuff
positions; with a shorter protected length the equality can fail, but the two agree on the protected bits. -/
def Obligations.DestuffUndoesStuff : Prop :=
  (∀ (inclusive : Bool) (R : List Bit) (L : Nat) (last : Bit),
    let u := stuff inclusive R L
    (R.length ≤ L → destuff u.S = R ∧ (destuffPass last u.S).dropPositions = u.P) ∧
    (L < R.length → (destuff u.S).take (min L R.length) = R.take (min L R.length))) ∧
  (∀ inclusive : Bool, ∃ R L, L < R.length ∧ destuff (stuff inclusive R L).S ≠ R)

/-- The two units run one machine: after the same stuffed stream `DST.run` and `DST.last` equal `STF.run` and
`STF.last` (`40_stuffer.md` section 3; it is the reason `41_destuffer.md` section 3 gives for the round trip). -/
def Obligations.StufferAndDestufferRunInStep : Prop :=
  ∀ (inclusive : Bool) (R : List Bit) (L : Nat) (p q : Bit), R.length ≤ L → R ≠ [] →
    (destuffPass q (stuffPass inclusive L p R).S).run = (stuffPass inclusive L p R).run ∧
    (destuffPass q (stuffPass inclusive L p R).S).last = (stuffPass inclusive L p R).last

/-! ## The extractor and the decode path over a sequence -/

/-- R122: `FFX.INIT` followed by `FFX.BIT` for each bit of `Cs` completes, and the status outputs are `extract(Cs)`;
bits at index 98 and above influence nothing, and `data` is present exactly when `dlc` is. -/
def Obligations.ExtractCommandsComputeExtract : Prop :=
  (∀ (s : State) (Cs : List Bit), s.cfg.fits Cs.length = true →
    ∃ t, runCommands (Pseudo.extract Cs).expand s = .next t ∧ t.ffx.frame = extract Cs ∧
      t.stf = s.stf ∧ t.dst = s.dst) ∧
  (∀ Cs T : List Bit, 98 ≤ Cs.length → extract (Cs ++ T) = extract Cs) ∧
  (∀ Cs : List Bit, (extract Cs).data.isSome = (extract Cs).dlc.isSome)

/-- R142: after `RX.INIT` and `RX.BITS B` the status outputs are `extract(destuff(B))`. -/
def Obligations.DecodePathIsExtractOfDestuff : Prop :=
  ∀ (s : State) (B : List Bit), s.cfg.fits B.length = true →
    ∃ t, runCommands (Pseudo.decode B).expand s = .next t ∧ t.ffx.frame = extract (destuff B) ∧
      t.dst.C = destuff B ∧ t.stf = s.stf

/-! ## What cannot be observed -/

/-- R166: two states that differ only in what is unspecified (a `last` before the first bit of a pass, cells not yet
written) cannot be told apart: every command has the same outcome in both, the states it leaves are again alike, and
the status outputs agree. -/
def Obligations.UnspecifiedValuesAreUnobservable : Prop :=
  ∀ s t : State, s.Alike t →
    (∀ i : Instr, sameOutcome State.Alike (exec i s) (exec i t)) ∧
    s.ffx.frame = t.ffx.frame ∧ (∀ f, s.ffx.fieldBox f = t.ffx.fieldBox f) ∧
    s.stf.stuffDue s.cfg.plenInclusive = t.stf.stuffDue t.cfg.plenInclusive ∧ s.dst.dropDue = t.dst.dropDue
end

