-- ==== Sys2Proof/Laws/Cells.lean ====
section
/-! SUPPORT. The laws of the cells: read after write, and that a write keeps the canonical form. -/

namespace Sys2Proof.Machine.Cells

/-- A cell reads as what was last written to it. -/
theorem read_write_same (c : Cells) (a : Nat) (b : Bit) : (write c a b).read a = some b := by
  induction c with
  | nil => simp [write, read]
  | cons p rest ih =>
    obtain ⟨k, v⟩ := p
    unfold write
    split
    · simp [read]
    · split
      · simp [read]
      · next h => simpa [read, Ne.symm h] using ih

/-- A write leaves every other cell as it was. -/
theorem read_write_of_ne (c : Cells) {a a' : Nat} (b : Bit) (h : a' ≠ a) : (write c a b).read a' = c.read a' := by
  induction c with
  | nil => simp [write, read, Ne.symm h]
  | cons p rest ih =>
    obtain ⟨k, v⟩ := p
    unfold write
    split
    · simp [read, Ne.symm h]
    · split
      · next hk => subst hk; simp [read, Ne.symm h]
      · simp [read, ih]

/-- Writing behind every listed cell puts the new cell at the end. -/
theorem write_append (c : Cells) (a : Nat) (b : Bit) (h : ∀ k ∈ c.map Prod.fst, k < a) :
    write c a b = c ++ [(a, b)] := by
  induction c with
  | nil => rfl
  | cons p rest ih =>
    obtain ⟨k, v⟩ := p
    have hk : k < a := h k (by simp)
    have := ih (fun x hx => h x (List.mem_cons_of_mem _ hx))
    simp [write, Nat.not_lt.mpr hk.le, Nat.ne_of_gt hk, this]

/-- The listed indices after a write are the written one and the earlier ones. -/
theorem mem_fst_write {c : Cells} {a : Nat} {b : Bit} {k : Nat} (h : k ∈ (write c a b).map Prod.fst) :
    k = a ∨ k ∈ c.map Prod.fst := by
  induction c with
  | nil => simpa [write] using h
  | cons p rest ih =>
    obtain ⟨k', v⟩ := p
    unfold write at h
    split at h
    · simpa using h
    · split at h
      · next hk => subst hk; simpa [or_assoc] using h
      · simp only [List.map_cons, List.mem_cons] at h ⊢
        rcases h with h | h
        · exact .inr (.inl h)
        · rcases ih h with h | h
          · exact .inl h
          · exact .inr (.inr h)

/-- A write keeps the indices strictly rising. -/
theorem write_sorted {c : Cells} (a : Nat) (b : Bit) (h : (c.map Prod.fst).Pairwise (· < ·)) :
    ((write c a b).map Prod.fst).Pairwise (· < ·) := by
  induction c with
  | nil => simp [write]
  | cons p rest ih =>
    obtain ⟨k, v⟩ := p
    simp only [List.map_cons, List.pairwise_cons] at h
    unfold write
    split
    · next hak =>
      simp only [List.map_cons, List.pairwise_cons, List.mem_cons]
      exact ⟨fun x hx => by rcases hx with rfl | hx; exacts [hak, hak.trans (h.1 x hx)], h⟩
    · split
      · next hak => subst hak; simpa [List.pairwise_cons] using h
      · simp only [List.map_cons, List.pairwise_cons]
        refine ⟨fun x hx => ?_, ih h.2⟩
        rcases mem_fst_write hx with rfl | hx
        · omega
        · exact h.1 x hx

/-- A write inside the frame keeps the canonical form. -/
theorem write_wf {c : Cells} {a : Nat} (b : Bit) (ha : a < frameBits) (h : wf c = true) : wf (write c a b) = true := by
  simp only [wf, Bool.and_eq_true, decide_eq_true_eq, List.all_eq_true] at h ⊢
  refine ⟨write_sorted a b h.1, fun p hp => ?_⟩
  rcases mem_fst_write (List.mem_map_of_mem (f := Prod.fst) hp) with h' | h'
  · simpa [h'] using ha
  · obtain ⟨q, hq, hqp⟩ := List.mem_map.1 h'
    simpa [hqp] using h.2 q hq

/-- The cells of `State.resetWith`, none of them listed, are canonical. -/
theorem reset_wf (cfg : Config) : wf (State.resetWith cfg).ffx.cbuf = true := rfl

/-- Reading cells that are listed without a gap from `k` on. -/
theorem read_of_range' (c : Cells) (k n : Nat) (h : c.map Prod.fst = List.range' k n) (a : Nat) :
    c.read a = if a < k then none else (c.map Prod.snd)[a - k]? := by
  induction c generalizing k n with
  | nil => simp [read]
  | cons p rest ih =>
    obtain ⟨k', v⟩ := p
    cases n with
    | zero => simp at h
    | succ n =>
      simp only [List.map_cons, List.range'_succ, List.cons.injEq] at h
      obtain ⟨rfl, h⟩ := h
      simp only [read, List.map_cons]
      rcases Nat.lt_trichotomy a k' with hlt | rfl | hgt
      · rw [if_neg (by omega), ih (k' + 1) n h, if_pos (by omega), if_pos hlt]
      · simp
      · rw [if_neg (by omega), ih (k' + 1) n h, if_neg (by omega), if_neg (by omega)]
        obtain ⟨m, rfl⟩ : ∃ m, a = k' + 1 + m := ⟨a - (k' + 1), by omega⟩
        rw [show k' + 1 + m - k' = m + 1 by omega, show k' + 1 + m - (k' + 1) = m by omega]
        rfl

/-- Reading cells that are listed without a gap from 0 on. -/
theorem read_of_range (c : Cells) (n : Nat) (h : c.map Prod.fst = List.range n) (a : Nat) :
    c.read a = (c.map Prod.snd)[a]? := by
  simpa using read_of_range' c 0 n (by rw [h, List.range_eq_range']) a

end Sys2Proof.Machine.Cells
end

