-- ==== Sys2Proof/Laws/Config.lean ====
section
/-! SUPPORT. What it means to fit in an index or count register. -/

namespace Sys2Proof

/-- Unbounded counters fit anything; otherwise fitting means lying below `2^IDX_W`. -/
theorem Config.fits_iff (cfg : Config) (n : Nat) : cfg.fits n = true ↔ ∀ w, cfg.idxW = some w → n < 2 ^ w := by
  unfold Config.fits
  cases cfg.idxW <;> simp

/-- What fits leaves room for anything smaller. -/
theorem Config.fits_mono {cfg : Config} {m n : Nat} (h : cfg.fits n = true) (hmn : m ≤ n) : cfg.fits m = true := by
  rw [Config.fits_iff] at *
  exact fun w hw => lt_of_le_of_lt hmn (h w hw)

theorem Config.fits_zero (cfg : Config) : cfg.fits 0 = true := by
  rw [Config.fits_iff]
  exact fun w _ => Nat.two_pow_pos w

end Sys2Proof
end

