-- ==== Sys2Proof/Laws/Decode.lean ====
section
/-! SUPPORT. The fields of an assembled word, and that no word is read two ways. -/

namespace Sys2Proof

open Decode Encode

/-- The fields of a word put together by the encoder are the ones that went in (R61). -/
theorem unitField_assemble (u o : BitVec 2) (b : Bit) : unitField (assemble u o b) = u := by
  revert u o b; decide

theorem opField_assemble (u o : BitVec 2) (b : Bit) : opField (assemble u o b) = o := by
  revert u o b; decide

theorem zeroField_assemble (u o : BitVec 2) (b : Bit) : zeroField (assemble u o b) = 0b000#3 := by
  revert u o b; decide

theorem bitField_assemble (u o : BitVec 2) (b : Bit) : bitField (assemble u o b) = b := by
  revert u o b; decide

/-- A word whose `zero` field is 000 is put together from its other fields. -/
theorem assemble_fields (w : BitVec 8) (h : zeroField w = 0b000#3) :
    assemble (unitField w) (opField w) (bitField w) = w := by
  revert w; decide

/-- No word belongs to two rows of the opcode map (R63). -/
theorem opcodeRows_disjoint :
    opcodeRows.Pairwise (fun r q => ∀ w : BitVec 8, ¬(w &&& r.2 = r.1 ∧ w &&& q.2 = q.1)) := by
  decide

end Sys2Proof
end

