-- ==== Sys2Proof/Laws/Destuffer.lean ====
section
/-! SUPPORT. What `DST.BIT` does to the destuffer, and that it keeps the destuffer's invariant. -/

namespace Sys2Proof.Machine.Dst

theorem dropDue_iff (u : Dst) : u.dropDue = true ↔ u.run = 5 := by simp [dropDue]

/-- After a run of five the bit is dropped, whatever its value (R101). -/
theorem takeBit_of_due {u : Dst} (h : u.run = 5) (b : Bit) :
    u.takeBit b = { run := 1, last := !u.last, icnt := u.icnt + 1, ccnt := u.ccnt, C := u.C, D := u.D ++ [true] } := by
  simp [takeBit, dropDue, h, dropBit]

/-- Any other bit is kept and counted into the run (R101). -/
theorem takeBit_of_not_due {u : Dst} (h : u.run ≠ 5) (b : Bit) :
    u.takeBit b =
      { run := if 1 ≤ u.run ∧ b = u.last then u.run + 1 else 1, last := b, icnt := u.icnt + 1, ccnt := u.ccnt + 1,
        C := u.C ++ [b], D := u.D ++ [false] } := by
  unfold takeBit keepBit continues
  rw [if_neg (by simpa [dropDue] using h)]
  by_cases h' : 1 ≤ u.run ∧ b = u.last
  · obtain ⟨h1, rfl⟩ := h'; simp [h1]
  · have h2 : (decide (1 ≤ u.run) && b == u.last) = false := by simpa using h'
    simp [h', h2]

@[simp] theorem takeBit_icnt (u : Dst) (b : Bit) : (u.takeBit b).icnt = u.icnt + 1 := by
  by_cases h : u.run = 5
  · rw [takeBit_of_due h]
  · rw [takeBit_of_not_due h]

/-- The streams only grow at their end (R50, R103). -/
theorem takeBit_extends (u : Dst) (b : Bit) : u.C <+: (u.takeBit b).C ∧ u.D <+: (u.takeBit b).D := by
  by_cases h : u.run = 5
  · rw [takeBit_of_due h]; simp
  · rw [takeBit_of_not_due h]; simp

/-- A bit that is dropped could have had either value (R28). -/
theorem takeBit_ignores_operand {u : Dst} (h : u.run = 5) (b c : Bit) : u.takeBit b = u.takeBit c := by
  rw [takeBit_of_due h, takeBit_of_due h]

theorem start_inv (cfg : Config) (last : Bit) : (start last).Inv cfg := by
  constructor <;> simp [start, Config.fits_zero]

/-- `DST.BIT` keeps the destuffer's invariant while the counter fits (R21, R31). -/
theorem Inv.takeBit {cfg : Config} {u : Dst} (h : u.Inv cfg) (b : Bit) (hf : dstCountersFit cfg u = true) :
    (u.takeBit b).Inv cfg := by
  obtain ⟨h1, h2, h3, h4, h5, h6⟩ := h
  simp only [runMax] at h1
  by_cases h : u.run = 5
  · rw [takeBit_of_due h]
    refine ⟨by simp, by simp, h3, by simp [h4], ?_, hf⟩
    simp; omega
  · rw [takeBit_of_not_due h]
    refine ⟨?_, ?_, by simp [h3], by simp [h4], ?_, hf⟩
    · simp only [runMax]; split <;> omega
    · simp only; split <;> simp
    · simp; omega

end Sys2Proof.Machine.Dst
end

