-- ==== Sys2Proof/Laws/Operands.lean ====
section
/-! SUPPORT. Numbers from bits, and `MemRead` on a buffer whose first cells are all written. -/

namespace Sys2Proof.Machine

/-- A bit sequence of length `n` is a number below `2^n` (R190). -/
theorem uint_lt (s : List Bit) : uint s < 2 ^ s.length := by
  induction s with
  | nil => simp [uint]
  | cons b rest ih => cases b <;> simp [uint, Nat.pow_succ] <;> omega

/-- The bit of index `i` has weight `2^(n-1-i)` (R7, R43). -/
theorem testBit_uint (s : List Bit) (i : Nat) (h : i < s.length) :
    s[i]? = some ((uint s).testBit (s.length - 1 - i)) := by
  induction s generalizing i with
  | nil => simp at h
  | cons b rest ih =>
    have hlt := uint_lt rest
    cases i with
    | zero =>
      have : (uint (b :: rest)).testBit rest.length = b := by
        rw [uint, Nat.mul_comm, Nat.testBit_two_pow_mul_add _ hlt]
        cases b <;> simp
      simp [this]
    | succ i =>
      have hi : i < rest.length := by simpa using h
      have : (uint (b :: rest)).testBit (rest.length - 1 - i) = (uint rest).testBit (rest.length - 1 - i) := by
        rw [uint, Nat.mul_comm, Nat.testBit_two_pow_mul_add _ hlt, if_pos (by omega)]
      rw [List.getElem?_cons_succ, ih i hi, List.length_cons, show rest.length + 1 - 1 - (i + 1) = rest.length - 1 - i by omega,
        this]

/-- `bits_N` is a sequence of `N` bits. -/
theorem length_bitsOf (n v : Nat) : (bitsOf n v).length = n := by
  induction n with
  | zero => rfl
  | succ n ih => simp [bitsOf, ih]

/-- `bits_N` is the inverse of `uint` (R7). -/
theorem uint_bitsOf (n v : Nat) (h : v < 2 ^ n) : uint (bitsOf n v) = v := by
  have key : ∀ n, uint (bitsOf n v) = v % 2 ^ n := by
    intro n
    induction n with
    | zero => simp [bitsOf, uint, Nat.mod_one]
    | succ n ih => rw [bitsOf, uint, length_bitsOf, ih, Nat.mod_pow_succ, Nat.toNat_testBit]; ring
  rw [key, Nat.mod_eq_of_lt h]

theorem length_slice (s : List Bit) (a n : Nat) (h : a + n ≤ s.length) : (slice s a (a + n)).length = n := by
  simp [slice]; omega

theorem getElem?_slice (s : List Bit) (a n i : Nat) (h : i < n) : (slice s a (a + n))[i]? = s[a + i]? := by
  simp [slice, h]

/-- Slices that lie inside a shorter part of a sequence. -/
theorem slice_take (s : List Bit) (a b m : Nat) (h : b ≤ m) : slice (s.take m) a b = slice s a b := by
  simp only [slice, List.drop_take, List.take_take]
  congr 1
  omega

namespace Ffx

/-- The bits in the buffer, in index order. -/
def bits (u : Ffx) : List Bit := u.cbuf.map Prod.snd

/-- Exactly the cells below `min(clen, 108)` are listed, in order. -/
def Filled (u : Ffx) : Prop := u.cbuf.map Prod.fst = List.range (min u.clen frameBits)

theorem Filled.length_bits {u : Ffx} (h : u.Filled) : u.bits.length = min u.clen frameBits := by
  have := congrArg List.length h
  simpa [bits] using this

theorem Filled.read {u : Ffx} (h : u.Filled) (a : Nat) : u.cbuf.read a = u.bits[a]? :=
  Cells.read_of_range _ _ h a

theorem Filled.cells {u : Ffx} (h : u.Filled) (a n : Nat) (hn : a + n ≤ min u.clen frameBits) :
    u.cells a n = some (slice u.bits a (a + n)) := by
  have hl := h.length_bits
  induction n generalizing a with
  | zero => simp [Ffx.cells, slice]
  | succ n ih =>
    have ha : a < u.bits.length := by omega
    rw [Ffx.cells, h.read, ih (a + 1) (by omega), List.getElem?_eq_getElem ha]
    simp only [slice, show a + 1 + n - (a + 1) = n by omega, show a + (n + 1) - a = n + 1 by omega]
    rw [List.drop_eq_getElem_cons ha, List.take_succ_cons]

/-- `MemRead` on a filled buffer: the slice when it has arrived, nothing before. -/
theorem Filled.memRead {u : Ffx} (h : u.Filled) (a n : Nat) :
    u.memRead a n = if a + n ≤ min u.clen frameBits then some (uint (slice u.bits a (a + n))) else none := by
  unfold Ffx.memRead
  split
  · next hn => rw [h.cells a n hn]; rfl
  · rfl

/-- The bits of a field that has arrived are the cells it covers, the lowest index the most significant (R43, R68). -/
theorem Filled.read_eq_testBit {u : Ffx} (h : u.Filled) (a n i : Nat) (hn : a + n ≤ min u.clen frameBits) (hi : i < n) :
    u.cbuf.read (a + i) = some ((uint (slice u.bits a (a + n))).testBit (n - 1 - i)) := by
  have hl := h.length_bits
  have hs : (slice u.bits a (a + n)).length = n := length_slice _ _ _ (by omega)
  rw [h.read, ← getElem?_slice _ a n i hi, testBit_uint _ i (by omega), hs]

end Ffx

end Sys2Proof.Machine
end

