-- ==== Sys2Proof/Laws/Extractor.lean ====
section
/-! SUPPORT. What `FFX.BIT` does to the extractor, and the status outputs of a filled buffer. -/

namespace Sys2Proof.Machine.Ffx

theorem Inv.filled {cfg : Config} {u : Ffx} (h : u.Inv cfg) : u.Filled := h.cells_written

/-- The buffer of a filled extractor is in canonical form. -/
theorem Filled.wf {u : Ffx} (h : u.Filled) : Cells.wf u.cbuf = true := by
  simp only [Cells.wf, Bool.and_eq_true, decide_eq_true_eq, List.all_eq_true]
  refine ⟨?_, fun p hp => ?_⟩
  · rw [show u.cbuf.map Prod.fst = _ from h]; exact List.pairwise_lt_range
  · have : p.1 ∈ List.range (min u.clen frameBits) := by
      rw [← show u.cbuf.map Prod.fst = _ from h]; exact List.mem_map_of_mem hp
    simp at this ⊢; omega

@[simp] theorem start_clen : start.clen = 0 := rfl

theorem start_filled : start.Filled := by simp [Filled, start]

@[simp] theorem start_bits : start.bits = [] := rfl

@[simp] theorem takeBit_clen (u : Ffx) (b : Bit) : (u.takeBit b).clen = u.clen + 1 := by
  unfold takeBit; split <;> rfl

/-- `FFX.BIT` stores while fewer than 108 bits are in, and stores nothing after that (R116). -/
theorem takeBit_cbuf (u : Ffx) (b : Bit) :
    (u.takeBit b).cbuf = if u.clen < 108 then u.cbuf.write u.clen b else u.cbuf := by
  unfold takeBit; simp only [frameBits]; split <;> rfl

/-- On a filled buffer the new bit goes to the end. -/
theorem Filled.takeBit_cbuf {u : Ffx} (h : u.Filled) (b : Bit) :
    (u.takeBit b).cbuf = if u.clen < 108 then u.cbuf ++ [(u.clen, b)] else u.cbuf := by
  rw [Ffx.takeBit_cbuf]
  split
  · refine Cells.write_append _ _ _ fun k hk => ?_
    rw [show u.cbuf.map Prod.fst = _ from h] at hk
    simp at hk; omega
  · rfl

theorem Filled.takeBit {u : Ffx} (h : u.Filled) (b : Bit) : (u.takeBit b).Filled := by
  have hk : u.cbuf.map Prod.fst = List.range (min u.clen frameBits) := h
  unfold Filled
  rw [h.takeBit_cbuf, takeBit_clen]
  split
  · next hl =>
    rw [List.map_append, hk, show min u.clen frameBits = u.clen by simp; omega,
      show min (u.clen + 1) frameBits = u.clen + 1 by simp; omega, List.range_succ]
    rfl
  · next hl =>
    rw [hk]; congr 1; simp; omega

/-- The stored bits after one more bit. -/
theorem Filled.takeBit_bits {u : Ffx} (h : u.Filled) (b : Bit) : (u.takeBit b).bits = (u.bits ++ [b]).take 108 := by
  have hl := h.length_bits
  simp only [frameBits] at hl
  unfold bits at *
  rw [h.takeBit_cbuf]
  split
  · rw [List.map_append, List.take_of_length_le (by simp; simp at hl; omega)]; rfl
  · rw [List.take_append_of_le_length (by omega), List.take_of_length_le (by omega)]

/-- The invariant of the extractor survives `FFX.BIT` while the counter fits. -/
theorem Inv.takeBit {cfg : Config} {u : Ffx} (h : u.Inv cfg) (b : Bit) (hf : ffxCountersFit cfg u = true) :
    (u.takeBit b).Inv cfg :=
  ⟨h.filled.takeBit b, by simpa [ffxCountersFit] using hf⟩

theorem start_inv (cfg : Config) : start.Inv cfg := ⟨start_filled, Config.fits_zero cfg⟩

/-! ## The outputs of a filled buffer -/

theorem Filled.id_eq {u : Ffx} (h : u.Filled) :
    u.id = if 12 ≤ u.clen then some (BitVec.ofNat 11 (uint (slice u.bits 1 12))) else none := by
  simp only [Ffx.id, idValid, decide_eq_true_eq]
  split
  · next hn => rw [h.memRead, if_pos (by simp; omega)]; rfl
  · rfl

theorem Filled.dlc_eq {u : Ffx} (h : u.Filled) :
    u.dlc = if 19 ≤ u.clen then some (BitVec.ofNat 4 (uint (slice u.bits 15 19))) else none := by
  simp only [Ffx.dlc, dlcValid, decide_eq_true_eq]
  split
  · next hn => rw [h.memRead, if_pos (by simp; omega)]; rfl
  · rfl

theorem Filled.crc_eq {u : Ffx} (h : u.Filled) :
    u.crc = if 98 ≤ u.clen then some (BitVec.ofNat 15 (uint (slice u.bits 83 98))) else none := by
  simp only [Ffx.crc, crcValid, decide_eq_true_eq]
  split
  · next hn => rw [h.memRead, if_pos (by simp; omega)]; rfl
  · rfl

theorem claimedBytes_le (u : Ffx) : u.claimedBytes ≤ 8 := by
  unfold claimedBytes; split <;> simp

/-- Byte `k` is valid when its eight bits are in and the frame claims it (R119). -/
theorem dataValid_iff (u : Ffx) (k : Nat) :
    u.dataValid k = true ↔ 19 + 8 * (k + 1) ≤ u.clen ∧ k < u.claimedBytes := by
  have := u.claimedBytes_le
  simp only [dataValid, ndata, decide_eq_true_eq, frameBits]
  split <;> omega

theorem ndata_le (u : Ffx) : u.ndata ≤ u.claimedBytes := by
  unfold ndata; split <;> omega

/-- A valid byte is the slice its row covers (R119). -/
theorem Filled.data_eq {u : Ffx} (h : u.Filled) (k : Nat) :
    u.data k = if k < u.ndata then some (BitVec.ofNat 8 (uint (slice u.bits (19 + 8 * k) (19 + 8 * k + 8)))) else none := by
  have hc := u.claimedBytes_le
  unfold Ffx.data
  by_cases hk : u.dataValid k = true
  · have := (u.dataValid_iff k).1 hk
    rw [if_pos hk, if_pos (by simpa [dataValid] using hk), h.memRead, if_pos (by simp; omega)]; rfl
  · rw [if_neg hk, if_neg (by simpa [dataValid] using hk)]

theorem claimedBytes_of_dlc {u : Ffx} {d : BitVec 4} (h : u.dlc = some d) : u.claimedBytes = min d.toNat 8 := by
  simp [claimedBytes, h]

end Sys2Proof.Machine.Ffx
end

