-- ==== Sys2Proof/Laws/State.lean ====
section
/-! SUPPORT. What each whole-state update leaves in each field, and the outcomes of the shared operations. -/

namespace Sys2Proof.Machine

variable (s : State) (u : Stf) (d : Dst) (x : Ffx) (p : List Command)

namespace State

@[simp] theorem setStf_cfg : (s.setStf u).cfg = s.cfg := rfl
@[simp] theorem setStf_stf : (s.setStf u).stf = u := rfl
@[simp] theorem setStf_dst : (s.setStf u).dst = s.dst := rfl
@[simp] theorem setStf_ffx : (s.setStf u).ffx = s.ffx := rfl
@[simp] theorem setStf_draws : (s.setStf u).draws = s.draws := rfl
@[simp] theorem setStf_port : (s.setStf u).port = s.port := rfl

@[simp] theorem setDst_cfg : (s.setDst d).cfg = s.cfg := rfl
@[simp] theorem setDst_stf : (s.setDst d).stf = s.stf := rfl
@[simp] theorem setDst_dst : (s.setDst d).dst = d := rfl
@[simp] theorem setDst_ffx : (s.setDst d).ffx = s.ffx := rfl
@[simp] theorem setDst_draws : (s.setDst d).draws = s.draws := rfl
@[simp] theorem setDst_port : (s.setDst d).port = s.port := rfl

@[simp] theorem setFfx_cfg : (s.setFfx x).cfg = s.cfg := rfl
@[simp] theorem setFfx_stf : (s.setFfx x).stf = s.stf := rfl
@[simp] theorem setFfx_dst : (s.setFfx x).dst = s.dst := rfl
@[simp] theorem setFfx_ffx : (s.setFfx x).ffx = x := rfl
@[simp] theorem setFfx_draws : (s.setFfx x).draws = s.draws := rfl
@[simp] theorem setFfx_port : (s.setFfx x).port = s.port := rfl

@[simp] theorem setPort_cfg : (s.setPort p).cfg = s.cfg := rfl
@[simp] theorem setPort_stf : (s.setPort p).stf = s.stf := rfl
@[simp] theorem setPort_dst : (s.setPort p).dst = s.dst := rfl
@[simp] theorem setPort_ffx : (s.setPort p).ffx = s.ffx := rfl
@[simp] theorem setPort_draws : (s.setPort p).draws = s.draws := rfl
@[simp] theorem setPort_port : (s.setPort p).port = p := rfl

@[simp] theorem drawn_cfg : s.drawn.cfg = s.cfg := rfl
@[simp] theorem drawn_stf : s.drawn.stf = s.stf := rfl
@[simp] theorem drawn_dst : s.drawn.dst = s.dst := rfl
@[simp] theorem drawn_ffx : s.drawn.ffx = s.ffx := rfl
@[simp] theorem drawn_draws : s.drawn.draws = s.draws + 1 := rfl
@[simp] theorem drawn_port : s.drawn.port = s.port := rfl

@[simp] theorem resetWith_cfg (cfg : Config) : (resetWith cfg).cfg = cfg := rfl
@[simp] theorem resetWith_port (cfg : Config) : (resetWith cfg).port = [] := rfl

end State

/-- A guarded command that answers a next state had room for its counters. -/
theorem unlessOverflow_next {ok : Bool} {t v : State} (h : unlessOverflow ok t = .next v) : ok = true ∧ v = t := by
  cases ok <;> simp_all [unlessOverflow]

/-- A guarded command is refused exactly when its counters have no room. -/
theorem unlessOverflow_refused_iff {ok : Bool} {t : State} :
    unlessOverflow ok t = .refused .counterOverflow ↔ ok = false := by
  cases ok <;> simp [unlessOverflow]

end Sys2Proof.Machine
end

