-- ==== Sys2Proof/Laws/Stuffer.lean ====
section
/-! SUPPORT. What `STF.BIT` does to the stuffer, and that it keeps the stuffer's invariant. -/

namespace Sys2Proof.Machine

/-! ## The run a sequence ends with -/

theorem trailingRun_nil : trailingRun [] = 0 := rfl

/-- A new bit continues the run at the end of a sequence or starts one (R12). -/
theorem trailingRun_append (s : List Bit) (b : Bit) :
    trailingRun (s ++ [b]) = if s.getLast? = some b then trailingRun s + 1 else 1 := by
  have hs : s.getLast? = s.reverse.head? := by simp
  unfold trailingRun
  rw [hs, List.reverse_append]
  rcases s.reverse with _ | ⟨c, rest⟩
  · simp
  · by_cases h : c = b
    · subst h; simp; omega
    · simp [h]

/-- A sequence that ends with a run of `n` ends with `n` copies of its last bit. -/
theorem replicate_suffix_of_le_trailingRun {s : List Bit} {n : Nat} {b : Bit} (hb : s.getLast? = some b)
    (h : n ≤ trailingRun s) : List.replicate n b <:+ s := by
  rw [← List.reverse_prefix, List.reverse_replicate]
  have hs : s.getLast? = s.reverse.head? := by simp
  rw [hs] at hb
  unfold trailingRun at h
  revert h hb
  rcases s.reverse with _ | ⟨c, rest⟩
  · simp
  · intro hb h
    obtain rfl : c = b := by simpa using hb
    cases n with
    | zero => simp
    | succ n =>
      rw [List.replicate_succ, List.cons_prefix_cons]
      refine ⟨rfl, ?_⟩
      have h1 : n ≤ (rest.takeWhile (· == c)).length := by
        simp only at h
        omega
      have h2 : rest.takeWhile (· == c) = List.replicate (rest.takeWhile (· == c)).length c := by
        rw [List.eq_replicate_iff]
        refine ⟨rfl, fun x hx => ?_⟩
        have := List.all_takeWhile (l := rest) (p := (· == c))
        rw [List.all_eq_true] at this
        simpa using this x hx
      have h3 := List.takeWhile_prefix (l := rest) (· == c)
      rw [h2] at h3
      refine List.IsPrefix.trans ⟨List.replicate ((rest.takeWhile (· == c)).length - n) c, ?_⟩ h3
      rw [← List.replicate_add, Nat.add_sub_cancel' h1]

namespace Stf

/-- The due condition spelled out (R28, R82). -/
theorem stuffDue_iff (inclusive : Bool) (u : Stf) :
    u.stuffDue inclusive = true ↔ u.run = 5 ∧ (if inclusive then u.rcnt ≤ u.plen else u.rcnt < u.plen) := by
  cases inclusive <;> simp [stuffDue, within]

/-- The run after one more bit: one longer, at most five, if the bit continues it, else one (R81, R86). -/
def nextRun (run : Nat) (last b : Bit) : Nat := if 1 ≤ run ∧ b = last then min (run + 1) 5 else 1

theorem copyBit_eq (u : Stf) (b : Bit) :
    u.copyBit b = { plen := u.plen, run := nextRun u.run u.last b, last := b, rcnt := u.rcnt + 1, scnt := u.scnt + 1,
                    S := u.S ++ [b], F := u.F ++ [false], P := u.P, M := u.M ++ [u.scnt] } := by
  unfold copyBit nextRun continues emit
  by_cases h : 1 ≤ u.run ∧ b = u.last
  · obtain ⟨h1, rfl⟩ := h; simp [h1]
  · have h' : (decide (1 ≤ u.run) && b == u.last) = false := by simpa using h
    simp [h, h']

/-- When a stuff bit is due, `STF.BIT` emits the complement and then its operand (R81). -/
theorem takeBit_of_due {inclusive : Bool} {u : Stf} (h : u.stuffDue inclusive = true) (b : Bit) :
    u.takeBit inclusive b =
      { plen := u.plen, run := if b = u.last then 1 else 2, last := b, rcnt := u.rcnt + 1, scnt := u.scnt + 2,
        S := u.S ++ [!u.last, b], F := u.F ++ [true, false], P := u.P ++ [u.scnt], M := u.M ++ [u.scnt + 1] } := by
  rw [takeBit, if_pos h, copyBit_eq]
  simp only [insertStuff, emit, nextRun, List.append_assoc, List.cons_append, List.nil_append]
  congr 1
  by_cases hb : b = u.last
  · simp [hb]
  · simp [Bool.eq_not_of_ne hb]

/-- When none is due, it emits its operand alone (R81). -/
theorem takeBit_of_not_due {inclusive : Bool} {u : Stf} (h : u.stuffDue inclusive = false) (b : Bit) :
    u.takeBit inclusive b =
      { plen := u.plen, run := nextRun u.run u.last b, last := b, rcnt := u.rcnt + 1, scnt := u.scnt + 1,
        S := u.S ++ [b], F := u.F ++ [false], P := u.P, M := u.M ++ [u.scnt] } := by
  rw [takeBit, if_neg (by simp [h]), copyBit_eq]

@[simp] theorem takeBit_rcnt (inclusive : Bool) (u : Stf) (b : Bit) : (u.takeBit inclusive b).rcnt = u.rcnt + 1 := by
  cases h : u.stuffDue inclusive
  · rw [takeBit_of_not_due h]
  · rw [takeBit_of_due h]

@[simp] theorem takeBit_plen (inclusive : Bool) (u : Stf) (b : Bit) : (u.takeBit inclusive b).plen = u.plen := by
  cases h : u.stuffDue inclusive
  · rw [takeBit_of_not_due h]
  · rw [takeBit_of_due h]

@[simp] theorem takeBit_last (inclusive : Bool) (u : Stf) (b : Bit) : (u.takeBit inclusive b).last = b := by
  cases h : u.stuffDue inclusive
  · rw [takeBit_of_not_due h]
  · rw [takeBit_of_due h]

theorem nextRun_pos (run : Nat) (last b : Bit) : 1 ≤ nextRun run last b := by unfold nextRun; split <;> omega

theorem nextRun_le (run : Nat) (last b : Bit) : nextRun run last b ≤ 5 := by unfold nextRun; split <;> omega

theorem takeBit_scnt_le (inclusive : Bool) (u : Stf) (b : Bit) : (u.takeBit inclusive b).scnt ≤ u.scnt + 2 := by
  cases h : u.stuffDue inclusive
  · rw [takeBit_of_not_due h]; simp
  · rw [takeBit_of_due h]

/-- The streams only grow at their end (R50, R89). -/
theorem takeBit_extends (inclusive : Bool) (u : Stf) (b : Bit) :
    u.S <+: (u.takeBit inclusive b).S ∧ u.F <+: (u.takeBit inclusive b).F ∧
    u.P <+: (u.takeBit inclusive b).P ∧ u.M <+: (u.takeBit inclusive b).M := by
  cases h : u.stuffDue inclusive
  · rw [takeBit_of_not_due h]; simp
  · rw [takeBit_of_due h]; simp

theorem start_inv {cfg : Config} {L : Nat} (h : cfg.fits L = true) (last : Bit) : (start L last).Inv cfg := by
  constructor <;> simp_all [start, trailingRun, Config.fits_zero]

/-- One more emission keeps what ties `F`, `P`, `M` and the stuffed indices together. -/
theorem flags_append {n : Nat} {F : List Bit} {P : List Nat} (hF : F = (List.range n).map (fun j => decide (j ∈ P)))
    (hP : ∀ p ∈ P, p < n) (stuffed : Bool) :
    F ++ [stuffed] = (List.range (n + 1)).map (fun j => decide (j ∈ if stuffed then P ++ [n] else P)) := by
  have hn : n ∉ P := fun h => absurd (hP n h) (by omega)
  rw [List.range_succ, List.map_append, hF]
  congr 1
  · refine List.map_congr_left fun j hj => ?_
    have : j ≠ n := by simp at hj; omega
    cases stuffed <;> simp [this]
  · cases stuffed <;> simp [hn]

/-- `STF.BIT` keeps the stuffer's invariant while the counters fit (R31). -/
theorem Inv.takeBit {cfg : Config} {u : Stf} (h : u.Inv cfg) (inclusive : Bool) (b : Bit)
    (hf : stfCountersFit cfg u = true) : (u.takeBit inclusive b).Inv cfg := by
  have hmem : ∀ x, x ∈ u.P ∨ x ∈ u.M → x < u.scnt := fun x hx => by
    have := h.enumerate.mem_iff.1 (List.mem_append.2 hx)
    simpa using this
  have hP : ∀ p ∈ u.P, p < u.scnt := fun p hp => hmem p (.inl hp)
  have hM : ∀ m ∈ u.M, m < u.scnt := fun m hm => hmem m (.inr hm)
  have hrun := h.run_le
  simp only [runMax] at hrun
  have hlast := h.last_eq
  have htr := h.run_eq
  simp only [runMax] at htr
  have hfit : ∀ n, n ≤ u.scnt + 2 → cfg.fits n = true := fun n hn => Config.fits_mono hf hn
  have hlen := h.scnt_eq
  cases hd : u.stuffDue inclusive
  · rw [takeBit_of_not_due hd]
    have h1 := nextRun_pos u.run u.last b
    have h2 := nextRun_le u.run u.last b
    refine ⟨h2, ?_, ?_, ?_, ?_, ?_, ?_, h.P_increasing, ?_, ?_, ?_, ?_, ?_, h.plen_fits, ?_⟩
    · simp; omega
    · simp
    · simp [h.length_S]
    · simp [h.length_F]
    · simp [h.length_M]
    · simp; omega
    · simp only [List.pairwise_append, List.pairwise_cons, List.mem_singleton]
      exact ⟨h.M_increasing, by simp, fun a ha c hc => hc ▸ hM a ha⟩
    · rw [← List.append_assoc, List.range_succ]
      exact h.enumerate.append_right _
    · simpa using flags_append h.flags_mark hP false
    · show nextRun u.run u.last b = min (trailingRun (u.S ++ [b])) 5
      rw [trailingRun_append]
      unfold nextRun
      by_cases hr : 1 ≤ u.run
      · rw [hlast hr]
        by_cases hb : b = u.last
        · simp [hr, hb]; omega
        · simp [hb, Ne.symm hb]
      · have h0 : u.run = 0 := by omega
        have hS : u.S = [] := by
          have := (h.run_zero_iff_scnt.1 h0)
          exact List.eq_nil_of_length_eq_zero (by rw [h.length_S, this])
        simp [hS, h0]
    · simp
    · exact hfit _ (by simp)
  · rw [takeBit_of_due hd]
    have h5 : u.run = 5 := ((stuffDue_iff _ _).1 hd).1
    have hl := hlast (by omega)
    refine ⟨?_, ?_, ?_, ?_, ?_, ?_, ?_, ?_, ?_, ?_, ?_, ?_, ?_, h.plen_fits, ?_⟩
    · show (if b = u.last then 1 else 2) ≤ 5; split <;> omega
    · show (if b = u.last then 1 else 2) = 0 ↔ _; split <;> simp
    · simp
    · simp [h.length_S]
    · simp [h.length_F]
    · simp [h.length_M]
    · simp; omega
    · simp only [List.pairwise_append, List.pairwise_cons, List.mem_singleton]
      exact ⟨h.P_increasing, by simp, fun a ha c hc => hc ▸ hP a ha⟩
    · simp only [List.pairwise_append, List.pairwise_cons, List.mem_singleton]
      exact ⟨h.M_increasing, by simp, fun a ha c hc => hc ▸ (hM a ha).trans (by omega)⟩
    · show ((u.P ++ [u.scnt]) ++ (u.M ++ [u.scnt + 1])).Perm (List.range (u.scnt + 2))
      rw [List.range_succ, List.range_succ]
      have : ((u.P ++ [u.scnt]) ++ (u.M ++ [u.scnt + 1])).Perm ((u.P ++ u.M) ++ [u.scnt] ++ [u.scnt + 1]) := by
        rw [← List.append_assoc]
        refine List.Perm.append_right _ ?_
        rw [List.append_assoc, List.append_assoc]
        exact List.Perm.append_left _ List.perm_append_comm
      exact this.trans ((h.enumerate.append_right _).append_right _)
    · have e1 := flags_append h.flags_mark hP true
      have e2 := flags_append e1 (by
        intro p hp
        simp only [if_true, List.mem_append, List.mem_singleton] at hp
        rcases hp with hp | rfl
        · exact (hP p hp).trans (by omega)
        · omega) false
      simpa using e2
    · show (if b = u.last then 1 else 2) = min (trailingRun (u.S ++ [!u.last, b])) 5
      rw [show u.S ++ [!u.last, b] = (u.S ++ [!u.last]) ++ [b] by simp, trailingRun_append, trailingRun_append, hl]
      cases b <;> cases u.last <;> simp
    · simp
    · exact hfit _ (by simp)

end Stf

end Sys2Proof.Machine
end

