-- ==== Sys2Proof/Laws/Exec.lean ====
section
/-! SUPPORT. Each command in one equation, everything a command can do, and the same for a step and a run. -/

namespace Sys2Proof.Machine

/-! ## The commands, where they complete -/

theorem exec_stfInit {s : State} {L : Nat} (h : s.cfg.fits L = true) :
    exec (.stfInit L) s = .next (s.setStf (Stf.start L s.freeBit)).drawn := by
  simp [exec, execStfInit, h]

theorem exec_stfBit {s : State} (b : Bit) (h : s.cfg.fits (s.stf.scnt + 2) = true) :
    exec (.stfBit b) s = .next (s.setStf (s.stf.takeBit s.cfg.plenInclusive b)) := by
  simp [exec, execStfBit, unlessOverflow, stfCountersFit, h]

theorem exec_dstInit (s : State) : exec .dstInit s = .next (s.setDst (Dst.start s.freeBit)).drawn := rfl

theorem exec_dstBit {s : State} (b : Bit) (h : s.cfg.fits (s.dst.icnt + 1) = true) :
    exec (.dstBit b) s = .next (s.setDst (s.dst.takeBit b)) := by
  simp [exec, execDstBit, unlessOverflow, dstCountersFit, h]

theorem exec_ffxInit (s : State) : exec .ffxInit s = .next (s.setFfx Ffx.start) := rfl

theorem exec_ffxBit {s : State} (b : Bit) (h : s.cfg.fits (s.ffx.clen + 1) = true) :
    exec (.ffxBit b) s = .next (s.setFfx (s.ffx.takeBit b)) := by
  simp [exec, execFfxBit, unlessOverflow, ffxCountersFit, h]

theorem exec_rxInit (s : State) :
    exec .rxInit s = .next ((s.setDst (Dst.start s.freeBit)).drawn.setFfx Ffx.start) := rfl

theorem exec_rxBit {s : State} (b : Bit) (h : s.cfg.fits (s.dst.icnt + 1) = true)
    (h' : s.cfg.fits (s.ffx.clen + 1) = true) : exec (.rxBit b) s = .next (s.chainBit b) := by
  simp [exec, execRxBit, unlessOverflow, dstCountersFit, ffxCountersFit, h, h']

/-! ## What `RX.BIT` does -/

theorem chainBit_of_due {s : State} (h : s.dst.run = 5) (b : Bit) : s.chainBit b = s.setDst (s.dst.takeBit b) := by
  rw [State.chainBit, if_pos ((Dst.dropDue_iff _).2 h)]

theorem chainBit_of_not_due {s : State} (h : s.dst.run ≠ 5) (b : Bit) :
    s.chainBit b = (s.setDst (s.dst.takeBit b)).setFfx (s.ffx.takeBit b) := by
  rw [State.chainBit, if_neg (by rwa [Dst.dropDue_iff])]; rfl

@[simp] theorem chainBit_cfg (s : State) (b : Bit) : (s.chainBit b).cfg = s.cfg := by
  unfold State.chainBit; dsimp only; split <;> rfl

@[simp] theorem chainBit_port (s : State) (b : Bit) : (s.chainBit b).port = s.port := by
  unfold State.chainBit; dsimp only; split <;> rfl

@[simp] theorem chainBit_stf (s : State) (b : Bit) : (s.chainBit b).stf = s.stf := by
  unfold State.chainBit; dsimp only; split <;> rfl

@[simp] theorem chainBit_draws (s : State) (b : Bit) : (s.chainBit b).draws = s.draws := by
  unfold State.chainBit; dsimp only; split <;> rfl

@[simp] theorem chainBit_dst (s : State) (b : Bit) : (s.chainBit b).dst = s.dst.takeBit b := by
  unfold State.chainBit; dsimp only; split <;> rfl

theorem chainBit_ffx (s : State) (b : Bit) :
    (s.chainBit b).ffx = if s.dst.run = 5 then s.ffx else s.ffx.takeBit b := by
  by_cases h : s.dst.run = 5
  · rw [chainBit_of_due h, if_pos h]; rfl
  · rw [chainBit_of_not_due h, if_neg h]; rfl

/-! ## Everything a command can do -/

/-- A command that answers a next state did one of these eight things, with room for its counters. -/
theorem exec_cases {i : Instr} {s t : State} (h : exec i s = .next t) :
    (∃ L, i = .stfInit L ∧ s.cfg.fits L = true ∧ t = (s.setStf (Stf.start L s.freeBit)).drawn) ∨
    (∃ b, i = .stfBit b ∧ stfCountersFit s.cfg s.stf = true ∧ t = s.setStf (s.stf.takeBit s.cfg.plenInclusive b)) ∨
    (i = .dstInit ∧ t = (s.setDst (Dst.start s.freeBit)).drawn) ∨
    (∃ b, i = .dstBit b ∧ dstCountersFit s.cfg s.dst = true ∧ t = s.setDst (s.dst.takeBit b)) ∨
    (i = .ffxInit ∧ t = s.setFfx Ffx.start) ∨
    (∃ b, i = .ffxBit b ∧ ffxCountersFit s.cfg s.ffx = true ∧ t = s.setFfx (s.ffx.takeBit b)) ∨
    (i = .rxInit ∧ t = (s.setDst (Dst.start s.freeBit)).drawn.setFfx Ffx.start) ∨
    (∃ b, i = .rxBit b ∧ dstCountersFit s.cfg s.dst = true ∧ ffxCountersFit s.cfg s.ffx = true ∧
      t = s.chainBit b) := by
  cases i with
  | stfInit L =>
    simp only [exec, execStfInit] at h
    split at h
    · next hf => cases h; exact .inl ⟨L, rfl, hf, rfl⟩
    · cases h
  | stfBit b => obtain ⟨h1, h2⟩ := unlessOverflow_next h; exact .inr (.inl ⟨b, rfl, h1, h2⟩)
  | dstInit => cases h; exact .inr (.inr (.inl ⟨rfl, rfl⟩))
  | dstBit b => obtain ⟨h1, h2⟩ := unlessOverflow_next h; exact .inr (.inr (.inr (.inl ⟨b, rfl, h1, h2⟩)))
  | ffxInit => cases h; exact .inr (.inr (.inr (.inr (.inl ⟨rfl, rfl⟩))))
  | ffxBit b =>
    obtain ⟨h1, h2⟩ := unlessOverflow_next h; exact .inr (.inr (.inr (.inr (.inr (.inl ⟨b, rfl, h1, h2⟩)))))
  | rxInit => cases h; exact .inr (.inr (.inr (.inr (.inr (.inr (.inl ⟨rfl, rfl⟩))))))
  | rxBit b =>
    obtain ⟨h1, h2⟩ := unlessOverflow_next h
    rw [Bool.and_eq_true] at h1
    exact .inr (.inr (.inr (.inr (.inr (.inr (.inr ⟨b, rfl, h1.1, h1.2, h2⟩))))))

/-- No command raises a fault (R150). -/
theorem exec_ne_fault (i : Instr) (s : State) (r : Fault) : exec i s ≠ .fault r := by cases r

/-- A step took no command, or it decoded one and executed it. -/
theorem step_cases {s t : State} (h : step s = .next t) :
    (s.port = [] ∧ t = s) ∨
    (∃ c rest i, s.port = c :: rest ∧ decode c = .ok i ∧ exec i (s.setPort rest) = .next t) := by
  unfold step State.takeCommand at h
  rcases hp : s.port with _ | ⟨c, rest⟩
  · rw [hp] at h; cases h; exact .inl ⟨rfl, rfl⟩
  · rw [hp] at h
    dsimp only at h
    rcases hd : decode c with why | i
    · rw [hd] at h; cases h
    · rw [hd] at h; exact .inr ⟨c, rest, i, rfl, hd, h⟩

/-- The step on a port that holds the word of a command. -/
theorem step_of_decode {s : State} {c : Command} {rest : List Command} {i : Instr} (hp : s.port = c :: rest)
    (hd : decode c = .ok i) : step s = exec i (s.setPort rest) := by
  unfold step State.takeCommand
  rw [hp]
  dsimp only
  rw [hd]

/-- One more step of a run comes first. -/
theorem core_run_succ (n : Nat) (s : State) :
    Sys2Proof.core.run (n + 1) s =
      match step s with
      | .next t => Sys2Proof.core.run n t
      | .fault r => .fault r
      | .refused r => .refused r := by
  have unfold_run : ∀ (M : Host.Core) (v : M.State), M.run (n + 1) v =
      match M.step v with
      | .next t => M.run n t
      | .fault r => .fault r
      | .refused r => .refused r := fun _ _ => rfl
  refine (unfold_run Sys2Proof.core s).trans ?_
  rw [show Sys2Proof.core.step s = step s from rfl]
  cases step s <;> rfl

/-! ## The waiting commands do not matter to the one that executes -/

/-- An outcome with other commands waiting. -/
def withPort (p : List Command) : Outcome → Outcome
  | .next t => .next (t.setPort p)
  | .fault r => .fault r
  | .refused r => .refused r

theorem withPort_unlessOverflow (p : List Command) (ok : Bool) (t : State) :
    withPort p (unlessOverflow ok t) = unlessOverflow ok (t.setPort p) := by
  cases ok <;> rfl

/-- A command neither reads nor writes what waits behind it at the port. -/
theorem exec_setPort (i : Instr) (s : State) (p : List Command) : exec i (s.setPort p) = withPort p (exec i s) := by
  cases i with
  | stfInit L =>
    by_cases hf : s.cfg.fits L = true
    · rw [exec_stfInit hf, exec_stfInit (s := s.setPort p) hf]; rfl
    · simp [exec, execStfInit, hf, withPort]
  | stfBit b => simp only [exec, execStfBit, withPort_unlessOverflow]; rfl
  | dstInit => rfl
  | dstBit b => simp only [exec, execDstBit, withPort_unlessOverflow]; rfl
  | ffxInit => rfl
  | ffxBit b => simp only [exec, execFfxBit, withPort_unlessOverflow]; rfl
  | rxInit => rfl
  | rxBit b =>
    simp only [exec, execRxBit, withPort_unlessOverflow]
    congr 1
    by_cases h : s.dst.run = 5
    · rw [chainBit_of_due h, chainBit_of_due (s := s.setPort p) h]; rfl
    · rw [chainBit_of_not_due h, chainBit_of_not_due (s := s.setPort p) h]; rfl

/-! ## The invariant through one command -/

/-- Replacing one unit by one that meets its invariant keeps the whole invariant. -/
theorem State.Inv.setStf {s : State} (h : s.Inv) {u : Stf} (hu : u.Inv s.cfg) : (s.setStf u).Inv := ⟨hu, h.dst, h.ffx⟩

theorem State.Inv.setDst {s : State} (h : s.Inv) {u : Dst} (hu : u.Inv s.cfg) : (s.setDst u).Inv := ⟨h.stf, hu, h.ffx⟩

theorem State.Inv.setFfx {s : State} (h : s.Inv) {u : Ffx} (hu : u.Inv s.cfg) : (s.setFfx u).Inv := ⟨h.stf, h.dst, hu⟩

theorem State.Inv.setPort {s : State} (h : s.Inv) (p : List Command) : (s.setPort p).Inv := ⟨h.stf, h.dst, h.ffx⟩

theorem State.Inv.drawn {s : State} (h : s.Inv) : s.drawn.Inv := ⟨h.stf, h.dst, h.ffx⟩

/-- A command keeps the invariant. -/
theorem exec_keeps_inv {i : Instr} {s t : State} (hs : s.Inv) (h : exec i s = .next t) : t.Inv := by
  rcases exec_cases h with ⟨L, -, hf, rfl⟩ | ⟨b, -, hf, rfl⟩ | ⟨-, rfl⟩ | ⟨b, -, hf, rfl⟩ | ⟨-, rfl⟩ | ⟨b, -, hf, rfl⟩ |
    ⟨-, rfl⟩ | ⟨b, -, hf, hf', rfl⟩
  · exact (hs.setStf (Stf.start_inv hf _)).drawn
  · exact hs.setStf (hs.stf.takeBit _ b hf)
  · exact (hs.setDst (Dst.start_inv _ _)).drawn
  · exact hs.setDst (hs.dst.takeBit b hf)
  · exact hs.setFfx (Ffx.start_inv _)
  · exact hs.setFfx (hs.ffx.takeBit b hf)
  · exact (hs.setDst (Dst.start_inv _ _)).drawn.setFfx (Ffx.start_inv _)
  · by_cases hr : s.dst.run = 5
    · rw [chainBit_of_due hr]; exact hs.setDst (hs.dst.takeBit b hf)
    · rw [chainBit_of_not_due hr]
      exact (hs.setDst (hs.dst.takeBit b hf)).setFfx (hs.ffx.takeBit b hf')

end Sys2Proof.Machine
end

