-- ==== Sys2Proof/Laws/Sequences.lean ====
section
/-! SUPPORT. Passes: one more bit at the end, the commands that make up a pass, and what holds of every pass. -/

namespace Sys2Proof.Machine

/-! ## One more bit -/

@[simp] theorem stuffPass_nil (inclusive : Bool) (L : Nat) (p : Bit) : stuffPass inclusive L p [] = Stf.start L p := rfl

theorem stuffPass_append (inclusive : Bool) (L : Nat) (p : Bit) (R T : List Bit) :
    stuffPass inclusive L p (R ++ T) = T.foldl (Stf.takeBit inclusive) (stuffPass inclusive L p R) := by
  simp [stuffPass]

theorem stuffPass_snoc (inclusive : Bool) (L : Nat) (p : Bit) (R : List Bit) (b : Bit) :
    stuffPass inclusive L p (R ++ [b]) = (stuffPass inclusive L p R).takeBit inclusive b := by
  simp [stuffPass]

@[simp] theorem destuffPass_nil (q : Bit) : destuffPass q [] = Dst.start q := rfl

theorem destuffPass_append (q : Bit) (B T : List Bit) :
    destuffPass q (B ++ T) = T.foldl Dst.takeBit (destuffPass q B) := by
  simp [destuffPass]

theorem destuffPass_snoc (q : Bit) (B : List Bit) (b : Bit) :
    destuffPass q (B ++ [b]) = (destuffPass q B).takeBit b := by
  simp [destuffPass]

theorem extractPass_snoc (Cs : List Bit) (b : Bit) : extractPass (Cs ++ [b]) = (extractPass Cs).takeBit b := by
  simp [extractPass]

/-! ## Counters over a pass -/

@[simp] theorem stuffPass_rcnt (inclusive : Bool) (L : Nat) (p : Bit) (R : List Bit) :
    (stuffPass inclusive L p R).rcnt = R.length := by
  induction R using List.reverseRecOn with
  | nil => rfl
  | append_singleton R b ih => rw [stuffPass_snoc, Stf.takeBit_rcnt, ih]; simp

@[simp] theorem stuffPass_plen (inclusive : Bool) (L : Nat) (p : Bit) (R : List Bit) :
    (stuffPass inclusive L p R).plen = L := by
  induction R using List.reverseRecOn with
  | nil => rfl
  | append_singleton R b ih => rw [stuffPass_snoc, Stf.takeBit_plen, ih]

@[simp] theorem destuffPass_icnt (q : Bit) (B : List Bit) : (destuffPass q B).icnt = B.length := by
  induction B using List.reverseRecOn with
  | nil => rfl
  | append_singleton B b ih => rw [destuffPass_snoc, Dst.takeBit_icnt, ih]; simp

@[simp] theorem extractPass_clen (Cs : List Bit) : (extractPass Cs).clen = Cs.length := by
  induction Cs using List.reverseRecOn with
  | nil => rfl
  | append_singleton Cs b ih => rw [extractPass_snoc, Ffx.takeBit_clen, ih]; simp

/-- With unbounded counters every pass meets the stuffer's invariant. -/
theorem stuffPass_inv (inclusive : Bool) (L : Nat) (p : Bit) (R : List Bit) :
    (stuffPass inclusive L p R).Inv { plenInclusive := inclusive, idxW := none } := by
  induction R using List.reverseRecOn with
  | nil => exact Stf.start_inv rfl p
  | append_singleton R b ih => rw [stuffPass_snoc]; exact ih.takeBit inclusive b rfl

theorem destuffPass_inv (q : Bit) (B : List Bit) :
    (destuffPass q B).Inv { plenInclusive := false, idxW := none } := by
  induction B using List.reverseRecOn with
  | nil => exact Dst.start_inv _ q
  | append_singleton B b ih => rw [destuffPass_snoc]; exact ih.takeBit b rfl

/-- After a pass the buffer is filled with the first 108 bits. -/
theorem extractPass_filled (Cs : List Bit) : (extractPass Cs).Filled ∧ (extractPass Cs).bits = Cs.take 108 := by
  induction Cs using List.reverseRecOn with
  | nil => exact ⟨Ffx.start_filled, rfl⟩
  | append_singleton Cs b ih =>
    rw [extractPass_snoc]
    refine ⟨ih.1.takeBit b, ?_⟩
    rw [ih.1.takeBit_bits, ih.2]
    rcases Nat.lt_or_ge Cs.length 108 with h | h
    · rw [List.take_of_length_le (Nat.le_of_lt h)]
    · rw [List.take_append_of_le_length (by simpa using h), List.take_append_of_le_length h, List.take_take]; simp

/-! ## The unspecified bit at the start of a pass does not matter -/

/-- Two stuffers that differ at most in an unread `last` are the same after one more bit. -/
theorem Stf.takeBit_start (inclusive : Bool) (L : Nat) (p q b : Bit) :
    (Stf.start L p).takeBit inclusive b = (Stf.start L q).takeBit inclusive b := by
  have h : ∀ r, (Stf.start L r).stuffDue inclusive = false := fun r => rfl
  rw [Stf.takeBit_of_not_due (h p), Stf.takeBit_of_not_due (h q)]
  rfl

theorem stuffPass_unspecified (inclusive : Bool) (L : Nat) (p q : Bit) (R : List Bit) :
    R ≠ [] → stuffPass inclusive L p R = stuffPass inclusive L q R := by
  cases R with
  | nil => simp
  | cons b rest =>
    intro _
    simp only [stuffPass, List.foldl_cons]
    rw [Stf.takeBit_start inclusive L p q b]

/-- The streams of a pass are those of `stuff`, whatever `last` held at the start. -/
theorem stuffPass_streams (inclusive : Bool) (L : Nat) (p : Bit) (R : List Bit) :
    stuff inclusive R L = { S := (stuffPass inclusive L p R).S, P := (stuffPass inclusive L p R).P,
                            M := (stuffPass inclusive L p R).M } := by
  cases R with
  | nil => rfl
  | cons b rest => rw [stuff, stuffPass_unspecified inclusive L (Config.freeBit 0) p (b :: rest) (by simp)]

theorem Dst.takeBit_start (p q b : Bit) : (Dst.start p).takeBit b = (Dst.start q).takeBit b := by
  rw [Dst.takeBit_of_not_due (by simp [Dst.start]), Dst.takeBit_of_not_due (by simp [Dst.start])]
  rfl

theorem destuffPass_unspecified (p q : Bit) (B : List Bit) : B ≠ [] → destuffPass p B = destuffPass q B := by
  cases B with
  | nil => simp
  | cons b rest =>
    intro _
    simp only [destuffPass, List.foldl_cons]
    rw [Dst.takeBit_start p q b]

theorem destuff_eq (q : Bit) (B : List Bit) : destuff B = (destuffPass q B).C := by
  cases B with
  | nil => rfl
  | cons b rest => rw [destuff, destuffPass_unspecified (Config.freeBit 1) q (b :: rest) (by simp)]

/-! ## Later input never changes earlier output -/

theorem foldl_takeBit_extends (inclusive : Bool) (T : List Bit) (u : Stf) :
    u.S <+: (T.foldl (Stf.takeBit inclusive) u).S ∧ u.F <+: (T.foldl (Stf.takeBit inclusive) u).F ∧
    u.P <+: (T.foldl (Stf.takeBit inclusive) u).P ∧ u.M <+: (T.foldl (Stf.takeBit inclusive) u).M := by
  induction T generalizing u with
  | nil => simp
  | cons b rest ih =>
    obtain ⟨h1, h2, h3, h4⟩ := u.takeBit_extends inclusive b
    obtain ⟨k1, k2, k3, k4⟩ := ih (u.takeBit inclusive b)
    exact ⟨h1.trans k1, h2.trans k2, h3.trans k3, h4.trans k4⟩

theorem foldl_destuff_extends (T : List Bit) (u : Dst) :
    u.C <+: (T.foldl Dst.takeBit u).C ∧ u.D <+: (T.foldl Dst.takeBit u).D := by
  induction T generalizing u with
  | nil => simp
  | cons b rest ih =>
    obtain ⟨h1, h2⟩ := u.takeBit_extends b
    obtain ⟨k1, k2⟩ := ih (u.takeBit b)
    exact ⟨h1.trans k1, h2.trans k2⟩

/-! ## The commands of a pass -/

theorem runCommands_cons {i : Instr} {s t : State} (h : exec i s = .next t) (rest : List Instr) :
    runCommands (i :: rest) s = runCommands rest t := by
  rw [runCommands, h]

/-- `STF.BITS R` completes while the counters fit, and folds `STF.BIT` over `R`. -/
theorem runCommands_stfBits (R : List Bit) (s : State) (h : s.cfg.fits (s.stf.scnt + 2 * R.length) = true) :
    runCommands (R.map .stfBit) s = .next (s.setStf (R.foldl (Stf.takeBit s.cfg.plenInclusive) s.stf)) := by
  induction R generalizing s with
  | nil => rfl
  | cons b rest ih =>
    rw [List.length_cons] at h
    rw [List.map_cons, runCommands_cons (exec_stfBit b (Config.fits_mono h (by omega)))]
    have hle := Stf.takeBit_scnt_le s.cfg.plenInclusive s.stf b
    rw [ih]
    · rfl
    · exact Config.fits_mono h (by simp; omega)

/-- `DST.BITS B` completes while the counter fits, and folds `DST.BIT` over `B`. -/
theorem runCommands_dstBits (B : List Bit) (s : State) (h : s.cfg.fits (s.dst.icnt + B.length) = true) :
    runCommands (B.map .dstBit) s = .next (s.setDst (B.foldl Dst.takeBit s.dst)) := by
  induction B generalizing s with
  | nil => rfl
  | cons b rest ih =>
    rw [List.length_cons] at h
    rw [List.map_cons, runCommands_cons (exec_dstBit b (Config.fits_mono h (by omega))), ih]
    · rfl
    · exact Config.fits_mono h (by simp; omega)

/-- `FFX.BITS Cs` completes while the counter fits, and folds `FFX.BIT` over `Cs`. -/
theorem runCommands_ffxBits (Cs : List Bit) (s : State) (h : s.cfg.fits (s.ffx.clen + Cs.length) = true) :
    runCommands (Cs.map .ffxBit) s = .next (s.setFfx (Cs.foldl Ffx.takeBit s.ffx)) := by
  induction Cs generalizing s with
  | nil => rfl
  | cons b rest ih =>
    rw [List.length_cons] at h
    rw [List.map_cons, runCommands_cons (exec_ffxBit b (Config.fits_mono h (by omega))), ih]
    · rfl
    · exact Config.fits_mono h (by simp; omega)

/-- `RX.BITS B` completes while both counters fit, and folds `RX.BIT` over `B`. -/
theorem runCommands_rxBits (B : List Bit) (s : State) (h : s.cfg.fits (s.dst.icnt + B.length) = true)
    (h' : s.cfg.fits (s.ffx.clen + B.length) = true) :
    runCommands (B.map .rxBit) s = .next (B.foldl State.chainBit s) := by
  induction B generalizing s with
  | nil => rfl
  | cons b rest ih =>
    rw [List.length_cons] at h h'
    rw [List.map_cons,
      runCommands_cons (exec_rxBit b (Config.fits_mono h (by omega)) (Config.fits_mono h' (by omega))), ih]
    · rfl
    · exact Config.fits_mono (by simpa using h) (by simp; omega)
    · rw [chainBit_cfg, chainBit_ffx]
      refine Config.fits_mono h' ?_
      split
      · omega
      · rw [Ffx.takeBit_clen]; omega

/-! ## The slices of `extract` -/

/-- The data bytes of `extract` are the fields that are fully in, from byte `k` on. -/
theorem extractData_eq (Cs : List Bit) (m k : Nat) :
    extractData Cs m k = (List.range (min m ((Cs.length - 19) / 8 - k))).map
      (fun j => BitVec.ofNat 8 (uint (slice Cs (19 + 8 * (k + j)) (27 + 8 * (k + j))))) := by
  induction m generalizing k with
  | zero => simp [extractData]
  | succ m ih =>
    unfold extractData
    by_cases h : 19 + 8 * (k + 1) ≤ Cs.length
    · rw [if_pos h, ih, show min (m + 1) ((Cs.length - 19) / 8 - k) = min m ((Cs.length - 19) / 8 - (k + 1)) + 1 by omega,
        List.range_succ_eq_map, List.map_cons, List.map_map]
      congr 1
      refine List.map_congr_left fun j _ => ?_
      simp only [Function.comp, Nat.succ_eq_add_one]
      rw [show k + 1 + j = k + (j + 1) by omega]
    · rw [if_neg h, show min (m + 1) ((Cs.length - 19) / 8 - k) = 0 by omega]
      rfl

end Sys2Proof.Machine
end

