-- ==== Sys2Proof/Laws/Passes.lean ====
section
/-! SUPPORT. The stuff map as a partition of the stuffed indices, runs at the end of a sequence, and what a stuffing
pass has emitted up to a mapped bit. -/

namespace Sys2Proof.Machine

/-! ## Positions -/

/-- The entry of a rising list at place `r` has `r` entries below it. -/
theorem length_filter_lt_of_getElem (M : List Nat) (h : M.Pairwise (· < ·)) (r j : Nat) (hr : M[r]? = some j) :
    (M.filter (· < j)).length = r := by
  induction M generalizing r with
  | nil => simp at hr
  | cons m rest ih =>
    rw [List.pairwise_cons] at h
    cases r with
    | zero =>
      obtain rfl : m = j := by simpa using hr
      rw [List.length_eq_zero_iff, List.filter_eq_nil_iff]
      intro x hx
      rcases List.mem_cons.1 hx with rfl | hx
      · simp
      · have := h.1 x hx; simp; omega
    | succ r =>
      have hr' : rest[r]? = some j := by simpa using hr
      have := h.1 j (List.mem_of_getElem? hr')
      rw [List.filter_cons_of_pos (by simpa using this), List.length_cons, ih h.2 r hr']

/-- `j` of the first `n` numbers lie below `j`. -/
theorem length_range_filter_lt (n j : Nat) (h : j ≤ n) : ((List.range n).filter (· < j)).length = j := by
  induction n with
  | zero => simp; omega
  | succ n ih =>
    rw [List.range_succ, List.filter_append, List.length_append]
    rcases Nat.lt_or_ge n j with h' | h'
    · have : (List.range n).filter (· < j) = List.range n := by
        rw [List.filter_eq_self]; intro a ha; simp at ha ⊢; omega
      rw [this]; simp [h']; omega
    · rw [ih h']; simp; omega

/-- Below a stuffed index lie as many stuff positions and mapped bits as there are indices (R31). -/
theorem Stf.Inv.below_split {cfg : Config} {u : Stf} (h : u.Inv cfg) (j : Nat) (hj : j ≤ u.scnt) :
    (u.P.filter (· < j)).length + (u.M.filter (· < j)).length = j := by
  have := (h.enumerate.filter (· < j)).length_eq
  rw [List.filter_append, List.length_append, length_range_filter_lt _ _ hj] at this
  exact this

/-- Every stuffed index is a stuff position or a mapped bit (R31). -/
theorem Stf.Inv.mem_P_or_M_iff {cfg : Config} {u : Stf} (h : u.Inv cfg) (j : Nat) :
    (j ∈ u.P ∨ j ∈ u.M) ↔ j < u.scnt := by
  have := h.enumerate.mem_iff (a := j); simpa using this

/-- No stuffed index is both (R31). -/
theorem Stf.Inv.not_mem_P_and_M {cfg : Config} {u : Stf} (h : u.Inv cfg) (j : Nat) (hp : j ∈ u.P)
    (hm : j ∈ u.M) : False := by
  have : (u.P ++ u.M).Nodup := h.enumerate.nodup_iff.2 List.nodup_range
  rw [List.nodup_append] at this
  exact this.2.2 j hp j hm rfl

/-! ## Runs -/

/-- Equal bits at the end of a sequence are counted by its trailing run. -/
theorem le_trailingRun (n : Nat) (b : Bit) (s : List Bit) (h : List.replicate n b <:+ s) : n ≤ trailingRun s := by
  rw [← List.reverse_prefix, List.reverse_replicate] at h
  unfold trailingRun
  obtain ⟨t, ht⟩ := h
  rw [← ht]
  cases n with
  | zero => simp
  | succ n =>
    rw [List.replicate_succ, List.cons_append]
    dsimp only
    rw [List.takeWhile_append_of_pos (by simp)]
    simp; omega

/-- A bit that leaves the trailing run at five or less makes no run of six. -/
theorem NoRunOfSix.append (s : List Bit) (b : Bit) (h : NoRunOfSix s) (ht : trailingRun (s ++ [b]) ≤ 5) :
    NoRunOfSix (s ++ [b]) := by
  intro c hc
  rw [List.infix_concat_iff] at hc
  rcases hc with hc | hc
  · have := le_trailingRun _ _ _ hc; omega
  · exact h c hc

/-! ## The map and the output so far -/

/-- The stuffed bits up to the one that raw index `m` maps to are the output of the pass over `R[0 .. m]`. -/
theorem stuffPass_take (inc : Bool) (L : Nat) (p : Bit) (R : List Bit) (m j : Nat) (hm : m < R.length)
    (hj : (stuffPass inc L p R).M[m]? = some j) :
    (stuffPass inc L p R).S.take (j + 1) = (stuffPass inc L p (R.take (m+1))).S := by
  have e : R = R.take (m+1) ++ R.drop (m+1) := (List.take_append_drop _ _).symm
  have hx := foldl_takeBit_extends inc (R.drop (m+1)) (stuffPass inc L p (R.take (m+1)))
  rw [← stuffPass_append, ← e] at hx
  obtain ⟨h1, -, -, h4⟩ := hx
  have e2 : R.take (m+1) = R.take m ++ [R[m]] := by simp
  have hM : (stuffPass inc L p (R.take (m+1))).M[m]? = some ((stuffPass inc L p (R.take (m+1))).scnt - 1) := by
    rw [e2, stuffPass_snoc]
    have hl := (stuffPass_inv inc L p (R.take m)).length_M
    rw [stuffPass_rcnt] at hl
    have hl : (stuffPass inc L p (R.take m)).M.length = m := by rw [hl]; simp; omega
    cases hd : (stuffPass inc L p (R.take m)).stuffDue inc
    · rw [Stf.takeBit_of_not_due hd]; dsimp only; rw [List.getElem?_append_right (by omega)]; simp [hl]
    · rw [Stf.takeBit_of_due hd]; dsimp only; rw [List.getElem?_append_right (by omega)]; simp [hl]
  obtain ⟨T, hT⟩ := h4
  rw [← hT, List.getElem?_append_left (List.getElem?_eq_some_iff.1 hM).1, hM] at hj
  have hi := stuffPass_inv inc L p (R.take (m+1))
  have : 0 < (stuffPass inc L p (R.take (m+1))).scnt := by
    rcases Nat.eq_zero_or_pos (stuffPass inc L p (R.take (m+1))).scnt with h | h
    · rw [hi.scnt_zero_iff_rcnt, stuffPass_rcnt, List.length_take] at h; omega
    · exact h
  obtain ⟨T, hT⟩ := h1
  have : j + 1 = (stuffPass inc L p (R.take (m+1))).S.length := by
    rw [hi.length_S]; simp at hj; omega
  rw [this, ← hT]; simp

/-- Skipping finds the next index that is no stuff position. -/
theorem skipStuff_eq (P : List Nat) (k : Nat) (hk : k ∉ P) :
    ∀ fuel j, j ≤ k → (∀ x, j ≤ x → x < k → x ∈ P) → k - j ≤ fuel → skipStuff P fuel j = k := by
  intro fuel
  induction fuel with
  | zero => intro j h1 h2 h3; rw [skipStuff]; omega
  | succ f ih =>
    intro j h1 h2 h3
    rw [skipStuff]
    by_cases h : j = k
    · subst h; rw [if_neg hk]
    · rw [if_pos (h2 j (le_refl _) (by omega)), ih (j+1) (by omega) (fun x a b => h2 x (by omega) b) (by omega)]

/-- Skipping over the stuff positions enumerates the rest of the stuffed indices. -/
theorem mapSkipping_eq (P : List Nat) :
    ∀ (M : List Nat) j, M.Pairwise (· < ·) → (∀ m ∈ M, j ≤ m ∧ m ∉ P) →
      (∀ x, j ≤ x → (∃ m ∈ M, x ≤ m) → x ∈ P ∨ x ∈ M) →
    mapSkipping P M.length j = M := by
  intro M
  induction M with
  | nil => intros; rfl
  | cons m M ih =>
    intro j h1 h2 h3
    rw [List.pairwise_cons] at h1
    have hj := (h2 m (by simp)).1
    have hin : ∀ x, j ≤ x → x < m → x ∈ P := by
      intro x hx hxm
      rcases h3 x hx ⟨m, by simp, hxm.le⟩ with h | h
      · exact h
      · rcases List.mem_cons.1 h with rfl | h
        · omega
        · have := h1.1 x h; omega
    have hlen : m - j ≤ P.length := by
      have hs : (List.range' j (m - j)) ⊆ P := fun x hx => by
        rw [List.mem_range'_1] at hx; exact hin x hx.1 (by omega)
      have := (List.nodup_range' (s := j) (n := m - j)).subperm hs |>.length_le
      simpa using this
    rw [List.length_cons, mapSkipping, skipStuff_eq P m (h2 m (by simp)).2 P.length j hj hin hlen]
    rw [ih (m+1) h1.2]
    · intro x hx; exact ⟨h1.1 x hx, (h2 x (by simp [hx])).2⟩
    · intro x hx ⟨m', hm', hle⟩
      rcases h3 x (by omega) ⟨m', by simp [hm'], hle⟩ with h | h
      · exact .inl h
      · rcases List.mem_cons.1 h with rfl | h
        · omega
        · exact .inr h

/-! ## Slices -/

/-- Later bits do not change a slice that is already in. -/
theorem slice_append (Cs T : List Bit) (i j : Nat) (h : j ≤ Cs.length) : slice (Cs ++ T) i j = slice Cs i j := by
  simp only [slice, List.drop_append, List.take_append]
  rw [show j - i - (Cs.drop i).length = 0 by simp; omega]
  simp

end Sys2Proof.Machine
end

