-- ==== Sys2Proof/Laws/PerInstr.lean ====
section
/-! SUPPORT. The family `EncodedWord`: what the word of every command looks like, one lemma per constructor. -/

namespace Sys2Proof.Laws.EncodedWord

/-- The word of a command belongs to exactly one row of the opcode map (R63), has `zero` = 000 and a defined `op`
(R61), and carries `b` = 0 where the command has no bit operand (R64); the operand it drives is in range whenever the
command is well-formed (R62). -/
def Statement (i : Instr) : Prop :=
  (opcodeRows.filter (fun r => (encode i).cmd &&& r.2 == r.1)).length = 1 ∧
  (encode i).cmd ∈ legalWords ∧
  Decode.zeroField (encode i).cmd = 0b000#3 ∧
  (Decode.opField (encode i).cmd = 0b00#2 ∧ Decode.bitField (encode i).cmd = false ∨
    Decode.opField (encode i).cmd = 0b01#2) ∧
  ∀ cfg, i.wellFormed cfg = true → cfg.fits (encode i).arg = true

theorem stfInit (L : Nat) : Statement (.stfInit L) := by
  refine ⟨?_, ?_, ?_, ?_, fun _ h => h⟩ <;> simp only [encode] <;> decide

theorem stfBit (b : Bit) : Statement (.stfBit b) := by
  refine ⟨?_, ?_, ?_, ?_, fun cfg _ => Config.fits_zero cfg⟩ <;> revert b <;> decide

theorem dstInit : Statement .dstInit :=
  ⟨by decide, by decide, by decide, by decide, fun cfg _ => Config.fits_zero cfg⟩

theorem dstBit (b : Bit) : Statement (.dstBit b) := by
  refine ⟨?_, ?_, ?_, ?_, fun cfg _ => Config.fits_zero cfg⟩ <;> revert b <;> decide

theorem ffxInit : Statement .ffxInit :=
  ⟨by decide, by decide, by decide, by decide, fun cfg _ => Config.fits_zero cfg⟩

theorem ffxBit (b : Bit) : Statement (.ffxBit b) := by
  refine ⟨?_, ?_, ?_, ?_, fun cfg _ => Config.fits_zero cfg⟩ <;> revert b <;> decide

theorem rxInit : Statement .rxInit :=
  ⟨by decide, by decide, by decide, by decide, fun cfg _ => Config.fits_zero cfg⟩

theorem rxBit (b : Bit) : Statement (.rxBit b) := by
  refine ⟨?_, ?_, ?_, ?_, fun cfg _ => Config.fits_zero cfg⟩ <;> revert b <;> decide

end Sys2Proof.Laws.EncodedWord
end

