-- ==== Sys2Proof/Tests/Slice0.lean ====
section
/-! SUPPORT. Tests against the spec's own encodings and vectors (`30_encoding.md`, `95_test_vectors.md`), and for each
statement with hypotheses a witness that meets them. -/

namespace Sys2Proof.Tests

open Sys2Proof.Machine

/-! ## Small states -/

def small (width : Option Nat) (inclusive : Bool) : Config := { plenInclusive := inclusive, idxW := width }

/-- The extractor with the `n` clean bits of the number `v`, first bit most significant. -/
def received (n v : Nat) : Ffx := { cbuf := (bitsOf n v).zipIdx.map Prod.swap, clen := n }

/-- The state of R81's example and vectors S4, S5: five 0s stuffed, with protected length `L`. -/
def fiveZeros (L : Nat) : Stf where
  plen := L
  run := 5
  last := false
  rcnt := 5
  scnt := 5
  S := List.replicate 5 false
  F := List.replicate 5 false
  P := []
  M := [0, 1, 2, 3, 4]

/-- The state of R101's example: five 0s destuffed. -/
def fiveZerosIn : Dst where
  run := 5
  last := false
  icnt := 5
  ccnt := 5
  C := List.replicate 5 false
  D := List.replicate 5 false

/-- The destuffer after step 6 of trace 3.3: the stuff bit dropped, the next run at one. -/
def stuffBitDropped : Dst where
  run := 1
  last := true
  icnt := 6
  ccnt := 5
  C := List.replicate 5 false
  D := [false, false, false, false, false, true]

def stateOf (cfg : Config) (stf : Stf) (dst : Dst) (ffx : Ffx) : State where
  cfg := cfg
  stf := stf
  dst := dst
  ffx := ffx
  draws := 0
  port := []

/-- The next state, where there is one. -/
def nextOf : Outcome → Option State
  | .next t => some t
  | .fault _ => none
  | .refused _ => none

/-- The reason of a refusal, where there is one. -/
def refusalOf : Outcome → Option Refusal
  | .next _ => none
  | .fault _ => none
  | .refused r => some r

/-- Frame FA of `95_test_vectors.md` section 4.1 as a number of 108 bits, first bit most significant. -/
def frameFA : Nat :=
  0b000100100011000100011011110101011011011111011101111000000010000001000000011000001001011010010110101011111111

/-- Frame FB. -/
def frameFB : Nat :=
  0b010101010101000111111011110101011011011111011101111000000010000001000000011000001001111111111111111011111111

/-- Frame FC. -/
def frameFC : Nat :=
  0b000000000001000001010100101001111000000000000000000000000000000000000000000000000000010010001101001011111111

/-! ## Well-formedness (R62) -/

theorem test_wellFormed_refuses_wide_operand :
    (Instr.stfInit 16).wellFormed (small (some 4) false) = false ∧
    (Instr.stfInit 15).wellFormed (small (some 4) false) = true ∧
    (Instr.stfInit 16).wellFormed (small none false) = true := by decide

/-! ## Decoding: words written out from the encodings of R61 and R63 -/

theorem test_decode_stf :
    decode ⟨0b00000000#8, 34⟩ = .ok (.stfInit 34) ∧ decode ⟨0b00010000#8, 0⟩ = .ok (.stfBit false) ∧
    decode ⟨0b00010001#8, 0⟩ = .ok (.stfBit true) := ⟨rfl, rfl, rfl⟩

theorem test_decode_dst :
    decode ⟨0b01000000#8, 0⟩ = .ok .dstInit ∧ decode ⟨0b01010000#8, 0⟩ = .ok (.dstBit false) ∧
    decode ⟨0b01010001#8, 0⟩ = .ok (.dstBit true) := ⟨rfl, rfl, rfl⟩

theorem test_decode_ffx :
    decode ⟨0b10000000#8, 0⟩ = .ok .ffxInit ∧ decode ⟨0b10010000#8, 0⟩ = .ok (.ffxBit false) ∧
    decode ⟨0b10010001#8, 0⟩ = .ok (.ffxBit true) := ⟨rfl, rfl, rfl⟩

theorem test_decode_rx :
    decode ⟨0b11000000#8, 0⟩ = .ok .rxInit ∧ decode ⟨0b11010000#8, 0⟩ = .ok (.rxBit false) ∧
    decode ⟨0b11010001#8, 0⟩ = .ok (.rxBit true) := ⟨rfl, rfl, rfl⟩

/-- A command other than `STF.INIT` ignores `arg` (R62). -/
theorem test_decode_ignores_arg : decode ⟨0x51#8, 77⟩ = .ok (.dstBit true) := rfl

/-- The refusal tests of `95_test_vectors.md` section 7. -/
theorem test_decode_reserved :
    decode ⟨0x01#8, 0⟩ = .error .bitOnInit ∧ decode ⟨0x12#8, 0⟩ = .error .zeroField ∧
    decode ⟨0x18#8, 0⟩ = .error .zeroField ∧ decode ⟨0x20#8, 0⟩ = .error .opField ∧
    decode ⟨0x30#8, 0⟩ = .error .opField ∧ decode ⟨0x41#8, 0⟩ = .error .bitOnInit ∧
    decode ⟨0x5F#8, 0⟩ = .error .zeroField ∧ decode ⟨0xA0#8, 0⟩ = .error .opField ∧
    decode ⟨0xC1#8, 0⟩ = .error .bitOnInit ∧ decode ⟨0xFF#8, 0⟩ = .error .zeroField :=
  ⟨rfl, rfl, rfl, rfl, rfl, rfl, rfl, rfl, rfl, rfl⟩

/-- The command bytes of the mnemonics (R63). -/
theorem test_encode_words :
    [Instr.stfInit 0, .stfBit false, .stfBit true, .dstInit, .dstBit false, .dstBit true, .ffxInit, .ffxBit false,
      .ffxBit true, .rxInit, .rxBit false, .rxBit true].map (fun i => (encode i).cmd) = legalWords := by decide

/-- The bits the table numbers are the command word; `arg` is then 0. -/
theorem test_decodeTableWord :
    decodeTableWord 8 0x00 = some (.stfInit 0) ∧ decodeTableWord 8 0xD1 = some (.rxBit true) ∧
    decodeTableWord 8 0x02 = none := by decide

/-! ## Commands, against the examples of the command rules and the vectors -/

/-- R80's example, from the middle of another pass. -/
theorem test_stfInit_abandons_pass :
    (nextOf (exec (.stfInit 34) (stateOf (small (some 32) false) (fiveZeros 6) fiveZerosIn Ffx.start))).map
      (fun t => ([t.stf.plen, t.stf.run, t.stf.rcnt, t.stf.scnt], [t.stf.S, t.stf.F], [t.stf.P, t.stf.M])) =
      some ([34, 0, 0, 0], [[], []], [[], []]) := by decide

/-- Vector S5i: with the inclusive reading raw index 5 is within `L = 5`, and the stuff bit comes first. -/
theorem test_stfBit_stuffs :
    (nextOf (exec (.stfBit false) (stateOf (small (some 32) true) (fiveZeros 5) fiveZerosIn Ffx.start))).map
      State.stf =
      some { plen := 5, run := 1, last := false, rcnt := 6, scnt := 7, P := [5], M := [0, 1, 2, 3, 4, 6],
             S := [false, false, false, false, false, true, false],
             F := [false, false, false, false, false, true, false] } := by decide

/-- Vector S5: with the other reading it is not, and `run` saturates at 5. -/
theorem test_stfBit_saturates :
    (nextOf (exec (.stfBit false) (stateOf (small (some 32) false) (fiveZeros 5) fiveZerosIn Ffx.start))).map
      (fun t => (t.stf.S, t.stf.P, t.stf.run, t.stf.last, t.stf.rcnt, t.stf.scnt)) =
      some ([false, false, false, false, false, false], [], 5, false, 6, 6) := by decide

/-- R100's example. -/
theorem test_dstInit_abandons_drop :
    (nextOf (exec .dstInit (stateOf Config.suggested (fiveZeros 6) fiveZerosIn Ffx.start))).map
      (fun t => (t.dst.run, t.dst.icnt, t.dst.ccnt, t.dst.C, t.dst.D)) = some (0, 0, 0, [], []) := by decide

/-- Vector D6: the sixth 0 is dropped although it is no stuff bit, and `last` becomes 1 all the same. -/
theorem test_dstBit_drops_wrong_value :
    (nextOf (exec (.dstBit false) (stateOf Config.suggested (fiveZeros 6) fiveZerosIn Ffx.start))).map
      State.dst =
      some { run := 1, last := true, icnt := 6, ccnt := 5, C := [false, false, false, false, false],
             D := [false, false, false, false, false, true] } := by decide

/-- Trace 3.3, step 7: the dropped bit counts in the next run. -/
theorem test_dstBit_counts_dropped_bit :
    (nextOf (exec (.dstBit true) (stateOf Config.suggested (fiveZeros 6) stuffBitDropped Ffx.start))).map
      (fun t => (t.dst.run, t.dst.last, t.dst.icnt, t.dst.ccnt)) = some (2, true, 7, 6) := by decide

/-- R115: every valid output becomes 0. -/
theorem test_ffxInit_discards_frame :
    (nextOf (exec .ffxInit (stateOf Config.suggested (fiveZeros 6) fiveZerosIn (received 12 0x7FF)))).map
      (fun t => (t.ffx.clen, t.ffx.idValid, t.ffx.id)) = some (0, false, none) := by decide

/-- R116's example: the twelfth bit makes `id` valid. -/
theorem test_ffxBit_completes_id :
    (nextOf (exec (.ffxBit true) (stateOf Config.suggested (fiveZeros 6) fiveZerosIn (received 11 0x3FF)))).map
      (fun t => (t.ffx.clen, t.ffx.cbuf.read 11, t.ffx.id)) = some (12, some true, some 0x7FF#11) := by decide

/-- Vector X14: a bit past index 107 is counted and not stored. -/
theorem test_ffxBit_past_frame :
    (nextOf (exec (.ffxBit true) (stateOf Config.suggested (fiveZeros 6) fiveZerosIn (received 108 frameFA)))).map
      (fun t => (t.ffx.clen, t.ffx.cbuf.read 108, t.ffx.cbuf.length)) = some (109, none, 108) := by decide

/-- R140's example. -/
theorem test_rxInit_clears_both :
    (nextOf (exec .rxInit (stateOf Config.suggested (fiveZeros 6) fiveZerosIn (received 5 0)))).map
      (fun t => (t.dst.run, t.dst.icnt, t.dst.ccnt, t.ffx.clen)) = some (0, 0, 0, 0) := by decide

/-- R141's example: the dropped bit does not reach the extractor. -/
theorem test_rxBit_drops :
    (nextOf (exec (.rxBit true) (stateOf Config.suggested (fiveZeros 6) fiveZerosIn (received 5 0)))).map
      (fun t => (t.dst.run, t.dst.last, t.dst.icnt, t.dst.ccnt, t.ffx.clen)) = some (1, true, 6, 5, 5) := by decide

/-- The bit after it does. -/
theorem test_rxBit_hands_on :
    (nextOf (exec (.rxBit true) (stateOf Config.suggested (fiveZeros 6) stuffBitDropped (received 5 0)))).map
      (fun t => (t.dst.icnt, t.dst.ccnt, t.ffx.clen, t.ffx.cbuf.read 5)) = some (7, 6, 6, some true) := by decide

/-! ## Steps -/

/-- The command placed by `withFetchWord` is the very next one, from reset. -/
theorem test_step_runs_word :
    (nextOf (step (State.reset.withFetchWord 8 0x11))).map (fun t => (t.stf.S, t.port)) = some ([true], []) := by decide

theorem test_step_refuses_reserved :
    refusalOf (step (State.reset.withFetchWord 8 0x20)) = some (.reservedWord .opField) := by decide

/-! ## Status outputs, against the vectors of `95_test_vectors.md` section 4.2 -/

/-- X1 and X2: eleven bits give no `id`, twelve do. -/
theorem test_id_threshold : (received 11 (frameFA >>> 97)).id = none ∧ (received 12 (frameFA >>> 96)).id = some 0x123#11 := by
  decide

/-- X12: the whole of DecodedFrame from 98 bits. -/
theorem test_frame_FA :
    (received 98 (frameFA >>> 10)).frame =
      { id := some 0x123#11, dlc := some 8#4, crc := some 0x5A5A#15,
        data := some [0xDE#8, 0xAD#8, 0xBE#8, 0xEF#8, 0x01#8, 0x02#8, 0x03#8, 0x04#8] } := by decide

/-- X11: the CRC needs 98 bits. -/
theorem test_crc_threshold : (received 97 (frameFA >>> 11)).crc = none := by decide

/-- X16: `dlc` is not clamped, and eight data bytes are the most. -/
theorem test_frame_FB :
    (received 108 frameFB).frame =
      { id := some 0x555#11, dlc := some 15#4, crc := some 0x7FFF#15,
        data := some [0xDE#8, 0xAD#8, 0xBE#8, 0xEF#8, 0x01#8, 0x02#8, 0x03#8, 0x04#8] } := by decide

/-- X17 and X18: the second byte needs 35 bits, and `ndata` stops at `dlc`. -/
theorem test_frame_FC :
    (received 34 (frameFC >>> 74)).frame.data = some [0xA5#8] ∧
    (received 35 (frameFC >>> 73)).frame.data = some [0xA5#8, 0x3C#8] ∧
    (received 108 frameFC).frame.data = some [0xA5#8, 0x3C#8] := by decide

/-- The auxiliary outputs of X13 and X12: EOF is 0x7F from 108 bits on. -/
theorem test_field_boxes :
    (received 108 frameFA).fieldBox .eof = some ⟨101, 7, 0x7F⟩ ∧ (received 98 (frameFA >>> 10)).fieldBox .eof = none ∧
    (received 99 (frameFA >>> 9)).fieldBox .crcDelim = some ⟨98, 1, 1⟩ := by decide

/-! ## Witnesses: a state and operands that meet the hypotheses of each statement that has some, clause by clause -/

/-- A block of four-bit counters in the states above. -/
def four : State := stateOf (small (some 4) false) (fiveZeros 5) fiveZerosIn (received 12 0x7FF)

/-! ### Words and steps -/

theorem witness_LegalWordsMatchTheirRows_DecodeAndEncodeAgree :
    decode ⟨0x10#8, 7⟩ = .ok (.stfBit false) ∧ decode ⟨0x00#8, 7⟩ = .ok (.stfInit 7) := ⟨rfl, rfl⟩

theorem witness_ReservedWordsAreRefused :
    (four.setPort [⟨0x41#8, 0⟩]).port = ⟨0x41#8, 0⟩ :: [] ∧
    step (four.setPort [⟨0x41#8, 0⟩]) = .refused (.reservedWord .bitOnInit) ∧
    (four.setPort [⟨0xC0#8, 0⟩]).port = ⟨0xC0#8, 0⟩ :: [] := ⟨rfl, rfl, rfl⟩

theorem witness_StepRunsDecodedCommand :
    (four.setPort [⟨0x51#8, 0⟩, ⟨0xFF#8, 3⟩]).port = ⟨0x51#8, 0⟩ :: [⟨0xFF#8, 3⟩] ∧
    decode ⟨0x51#8, 0⟩ = .ok (.dstBit true) := ⟨rfl, rfl⟩

theorem witness_StepWithoutCommandChangesNothing : four.port = [] := rfl

theorem witness_NoOutputAfterResetOrInit :
    (∃ u, u = (State.resetWith (small none true)).ffx) ∧ (∃ t, exec .ffxInit four = .next t) ∧
    (∃ t, exec .rxInit four = .next t) := ⟨⟨_, rfl⟩, ⟨_, rfl⟩, ⟨_, rfl⟩⟩

/-! ### Commands -/

/-- The largest operand of four bits, and any at all where the width is unbounded. -/
theorem witness_StfInitStartsPass_InitRestoresResetState :
    four.cfg.fits 15 = true ∧ (stateOf (small none false) (fiveZeros 0) fiveZerosIn Ffx.start).cfg.fits (2 ^ 40) = true :=
  by decide

theorem witness_StfInitRefusesWideOperand : four.cfg.idxW = some 4 ∧ 2 ^ 4 ≤ 16 := by decide

/-- A stuff bit due in the inclusive reading and not in the other, at raw index 5 with `L = 5`; the counters fit. -/
theorem witness_StfBitEmitsStuffBitWhenDue :
    four.cfg.fits (four.stf.scnt + 2) = true ∧
    (let s := { four with cfg := small (some 3) true }
     s.cfg.fits (s.stf.scnt + 2) = true ∧ s.stf.run = 5 ∧ s.stf.rcnt ≤ s.stf.plen) ∧
    ¬(four.stf.run = 5 ∧ four.stf.rcnt < four.stf.plen) := by decide

theorem witness_DueConditionsForetellNextBit :
    (∃ t, exec (.stfBit true) four = .next t) ∧ (∃ t, exec (.dstBit true) four = .next t) ∧
    four.dst.dropDue = true ∧ (fiveZeros 6).stuffDue false = true ∧ (fiveZeros 5).stuffDue false = false :=
  ⟨⟨_, rfl⟩, ⟨_, rfl⟩, rfl, rfl, rfl⟩

theorem witness_DstBitKeepsOrDrops :
    four.cfg.fits (four.dst.icnt + 1) = true ∧ four.dst.run = 5 ∧
    four.cfg.fits ((four.setDst stuffBitDropped).dst.icnt + 1) = true ∧ (four.setDst stuffBitDropped).dst.run ≠ 5 := by
  decide

/-- The last cell, and the first bit that finds none. -/
theorem witness_FfxBitStoresAtClen :
    (let s := stateOf Config.suggested (fiveZeros 5) fiveZerosIn (received 107 0)
     s.cfg.fits (s.ffx.clen + 1) = true ∧ s.ffx.clen < 108) ∧
    (let s := stateOf Config.suggested (fiveZeros 5) fiveZerosIn (received 108 0)
     s.cfg.fits (s.ffx.clen + 1) = true ∧ ¬s.ffx.clen < 108) := by decide

theorem fiveZerosIn_inv : fiveZerosIn.Inv (small (some 4) false) :=
  ⟨by decide, by decide, by decide, by decide, by decide, by decide⟩

theorem received_inv : (received 5 0).Inv (small (some 4) false) := ⟨by decide, by decide⟩

theorem fiveZeros_inv : (fiveZeros 5).Inv (small (some 4) false) where
  run_le := by decide
  run_zero_iff_scnt := by decide
  scnt_zero_iff_rcnt := by decide
  length_S := rfl
  length_F := rfl
  length_M := rfl
  scnt_eq := rfl
  P_increasing := by decide
  M_increasing := by decide
  enumerate := by decide
  flags_mark := rfl
  run_eq := rfl
  last_eq := by decide
  plen_fits := rfl
  scnt_fits := rfl

/-- A state in the middle of three passes, the decode pass started by `RX.INIT`. -/
def midPass : State := stateOf (small (some 4) false) (fiveZeros 5) fiveZerosIn (received 5 0)

theorem midPass_inv : midPass.Inv := ⟨fiveZeros_inv, fiveZerosIn_inv, received_inv⟩

theorem midPass_chained : midPass.Chained := ⟨by decide, by decide⟩

theorem witness_RxBitIsDstBitThenFfxBit :
    (midPass.cfg.fits (midPass.dst.icnt + 1) = true ∧ midPass.cfg.fits (midPass.ffx.clen + 1) = true ∧
      midPass.dst.run = 5 ∧ (midPass.setDst stuffBitDropped).dst.run ≠ 5) ∧
    exec (.dstBit true) (midPass.setDst { fiveZerosIn with icnt := 15 }) = .refused .counterOverflow ∧
    exec (.ffxBit true) (midPass.setFfx { clen := 15, cbuf := [] }) = .refused .counterOverflow ∧
    (∃ t, exec .rxInit midPass = .next t) ∧
    (midPass.Inv ∧ midPass.Chained ∧ ∃ t, exec (.rxBit true) midPass = .next t) :=
  ⟨by decide, rfl, rfl, ⟨_, rfl⟩, midPass_inv, midPass_chained, ⟨_, rfl⟩⟩

/-- With counters of no bits every `BIT` command is refused at once; with four bits, the middle of a pass goes on. -/
theorem witness_CounterOverflowIsRefused :
    (let s := State.resetWith (small (some 0) false)
     s.cfg.idxW = some 0 ∧ s.Inv ∧ exec (.dstBit true) s = .refused .counterOverflow ∧ s.dst.icnt = 2 ^ 0 - 1) ∧
    (midPass.cfg.idxW = some 4 ∧ midPass.Inv ∧ ¬2 ^ 4 - 1 < midPass.stf.scnt + 2) ∧
    (State.resetWith (small none true)).cfg.idxW = none :=
  ⟨⟨rfl, ⟨Stf.start_inv (Config.fits_zero _) _, Dst.start_inv _ _, Ffx.start_inv _⟩, rfl, rfl⟩,
    ⟨rfl, midPass_inv, by decide⟩, rfl⟩

/-- The overflow tests of `95_test_vectors.md` section 7: `STF.BIT` at `scnt = 14` of 15. -/
theorem witness_EveryCommandCompletesOrOverflows :
    (Instr.stfBit true).wellFormed midPass.cfg = true ∧ (∃ t, exec (.stfBit true) midPass = .next t) ∧
    exec (.stfBit true) (midPass.setStf { fiveZeros 5 with scnt := 14, rcnt := 14 }) = .refused .counterOverflow :=
  ⟨rfl, ⟨_, rfl⟩, rfl⟩

theorem witness_CommandsWriteOnlyTheirUnit :
    (∃ t, exec (.stfInit 3) midPass = .next t ∧ t.stf ≠ midPass.stf ∧ t.stf.plen ≠ midPass.stf.plen) ∧
    (∃ t, exec (.rxBit true) midPass = .next t ∧ t.dst ≠ midPass.dst) ∧
    (∃ t, exec (.ffxBit true) midPass = .next t ∧ t.ffx ≠ midPass.ffx) :=
  ⟨⟨_, rfl, fun h => absurd (congrArg Stf.run h) (by decide), by decide⟩, ⟨_, rfl, by decide⟩, ⟨_, rfl, by decide⟩⟩

/-! ### The invariant -/

theorem witness_SpacesAreAppendOnly :
    midPass.Inv ∧ (∃ t, exec (.ffxBit true) midPass = .next t) ∧ (∀ L, Instr.ffxBit true ≠ .stfInit L) ∧
    Instr.ffxBit true ≠ .dstInit ∧ Instr.ffxBit true ≠ .rxInit ∧ Instr.ffxBit true ≠ .ffxInit ∧
    midPass.ffx.cbuf.read 4 = some false :=
  ⟨midPass_inv, ⟨_, rfl⟩, fun _ h => (by cases h), by decide⟩

theorem witness_StepKeepsTheInvariant_BufferStaysCanonical :
    (midPass.setPort [⟨0xD1#8, 0⟩]).Inv ∧ ∃ t, step (midPass.setPort [⟨0xD1#8, 0⟩]) = .next t :=
  ⟨midPass_inv.setPort _, _, rfl⟩

theorem witness_EveryRunMeetsTheInvariant :
    ∃ t, Sys2Proof.core.run 2
      ({ State.resetWith (small (some 4) true) with port := [⟨0x00#8, 9⟩, ⟨0x11#8, 0⟩] } : State) = .next t := ⟨_, rfl⟩

/-! ### Status outputs -/

theorem witness_IdIsCleanBitsOneToEleven :
    (received 11 0x3FF).Inv (small none false) ∧ (received 11 0x3FF).clen < 12 ∧
    (received 12 0x7FF).Inv (small none false) ∧ 12 ≤ (received 12 0x7FF).clen :=
  ⟨⟨by decide, rfl⟩, by decide, ⟨by decide, rfl⟩, by decide⟩

theorem witness_DlcIsCleanBitsFifteenToEighteen :
    (received 18 7).Inv (small none false) ∧ (received 18 7).clen < 19 ∧
    (received 19 15).Inv (small none false) ∧ 19 ≤ (received 19 15).clen :=
  ⟨⟨by decide, rfl⟩, by decide, ⟨by decide, rfl⟩, by decide⟩

/-- No byte with 18 bits; `dlc = 8` with one bit too few for the first byte; with the first byte; `dlc = 0`. -/
theorem witness_DataBytesFollowDlcAndArrival :
    ((received 18 (frameFA >>> 90)).Inv (small none false) ∧ (received 18 (frameFA >>> 90)).clen < 19) ∧
    ((received 26 (frameFA >>> 82)).Inv (small none false) ∧ (received 26 (frameFA >>> 82)).dlc = some 8#4 ∧
      (received 26 (frameFA >>> 82)).ndata = 0) ∧
    ((received 27 (frameFA >>> 81)).Inv (small none false) ∧ 0 < (received 27 (frameFA >>> 81)).ndata) ∧
    ((received 27 0).Inv (small none false) ∧ (received 27 0).ndata ≤ 0) :=
  ⟨⟨⟨by decide, rfl⟩, by decide⟩, ⟨⟨by decide, rfl⟩, by decide, by decide⟩, ⟨⟨by decide, rfl⟩, by decide⟩,
    ⟨by decide, rfl⟩, by decide⟩

theorem witness_CrcIsCleanBitsFromEightyThree :
    (received 97 (frameFA >>> 11)).Inv (small none false) ∧ (received 97 (frameFA >>> 11)).clen < 98 ∧
    (received 98 (frameFA >>> 10)).Inv (small none false) ∧ 98 ≤ (received 98 (frameFA >>> 10)).clen :=
  ⟨⟨by decide, rfl⟩, by decide, ⟨by decide, rfl⟩, by decide⟩

/-- EOF with 107 bits and with 108; a DATA row that the frame claims and one it does not. -/
theorem witness_FieldTableOutputs :
    (received 107 (frameFC >>> 1)).Inv (small none false) ∧
    ¬FrameField.eof.start + FrameField.eof.width ≤ (received 107 (frameFC >>> 1)).clen ∧
    (received 108 frameFC).Inv (small none false) ∧
    FrameField.eof.start + FrameField.eof.width ≤ (received 108 frameFC).clen ∧
    (received 108 frameFC).dlc = some 2#4 ∧ (1 : Fin 8).val < min (2#4).toNat 8 ∧ ¬(2 : Fin 8).val < min (2#4).toNat 8 :=
  ⟨⟨by decide, rfl⟩, by decide, ⟨by decide, rfl⟩, by decide, by decide, by decide, by decide⟩

theorem witness_OutputsNeverChangeOnceValid :
    let s := stateOf (small none false) (Stf.start 0 false) (Dst.start false) (received 98 (frameFA >>> 10))
    s.Inv ∧ (∃ t, exec (.ffxBit true) s = .next t) ∧ Instr.ffxBit true ≠ .ffxInit ∧ Instr.ffxBit true ≠ .rxInit ∧
    s.ffx.id = some 0x123#11 ∧ s.ffx.dlc = some 8#4 ∧ s.ffx.data 7 = some 4#8 ∧ s.ffx.crc = some 0x5A5A#15 ∧
    s.ffx.idValid = true ∧ s.ffx.dlcValid = true ∧ s.ffx.crcValid = true ∧ s.ffx.dataValid 7 = true :=
  ⟨⟨Stf.start_inv rfl _, Dst.start_inv _ _, ⟨by decide, rfl⟩⟩, ⟨_, rfl⟩, by decide, by decide, by decide, by decide,
    by decide, by decide, by decide, by decide, by decide, by decide⟩

/-! ### The stuff map and the passes -/

/-- Vector S4 has a stuff bit at 5, and raw bit 5 at 6. -/
theorem witness_RawIndexMapInverts_SymbolsNumberTheRawBits :
    let u := stuffPass false 6 true (List.replicate 6 false)
    u.Inv (small none false) ∧ 5 ∈ u.P ∧ 6 < u.scnt ∧ 6 ∉ u.P ∧ u.M[5]? = some 6 ∧
    u.symbols[6]? = some (false, false) ∧ u.symbols[5]? = some (true, true) :=
  ⟨stuffPass_inv false 6 true _, by decide, by decide, by decide, by decide, by decide, by decide⟩

theorem witness_StuffCommandsComputeStuff_StufferIsAWireAfterReset :
    four.cfg.fits 9 = true ∧ four.cfg.fits (2 * (List.replicate 7 true).length) = true := by decide

/-- S4 again, for the statements about `stuff`: an entry of the map, the last protected bit, the stuff bit. -/
theorem witness_StuffMapSkipsPositions_ProtectedOutputHasNoRunOfSix :
    (stuff false (List.replicate 6 false) 6).M[5]? = some 6 ∧
    ((stuff false (List.replicate 6 false) 6).M[min 6 (List.replicate 6 false).length - 1]? = some 6 ∧
      1 ≤ min 6 (List.replicate 6 false).length) ∧
    (stuff true (List.replicate 6 false) 5).M[5]? = some 6 ∧ 5 ∈ (stuff false (List.replicate 6 false) 6).P := by
  decide

theorem witness_StuffedLengthsAndDeletion :
    5 ∈ (stuff true (List.replicate 6 false) 5).P ∧ 4 ≤ (if true then 4 else 5) ∧ 5 ≤ (if false then 4 else 5) := by
  decide

/-- S5 and S5i: the run of five ends on the last protected bit `R[4]`, and `R[5]` follows. -/
theorem witness_ReadingsDifferOnlyAtTheBoundary :
    (5 ≤ 6 ∧ within false 5 5 = false ∧ within true 6 5 = false) ∧
    (5 < (List.replicate 6 false).length ∧
      (stuffPass false 5 true ((List.replicate 6 false).take 5)).run = 5 ∧
      (List.replicate 6 false)[5 - 1]? = some false ∧ (List.replicate 6 false)[5]? = some false) := by decide

theorem witness_DestuffCommands_DecodePath :
    four.cfg.fits (List.replicate 15 true).length = true ∧ (small none false).fits (2 ^ 40) = true := by decide

theorem witness_DestuffedLengths_CleanMapPointsAtKeptBits :
    let u := destuffPass true (List.replicate 7 false)
    5 ∈ u.dropPositions ∧ u.cleanToStuffed[5]? = some 6 ∧ 6 < u.D.length ∧ 6 ∉ u.dropPositions := by decide

/-- `L = len(R)`, the smallest full protection, and `L = len(R) - 1`. -/
theorem witness_DestuffUndoesStuff :
    (List.replicate 6 false).length ≤ 6 ∧ 5 < (List.replicate 6 false).length := by decide

theorem witness_StufferAndDestufferRunInStep :
    (List.replicate 6 false).length ≤ 6 ∧ List.replicate 6 false ≠ [] := by decide

theorem witness_ExtractCommandsComputeExtract :
    four.cfg.fits (List.replicate 15 true).length = true ∧ 98 ≤ (List.replicate 98 true).length := by decide

/-- Two states that differ in both `last` registers, in a cell past `clen`, and in how many values were drawn. -/
theorem witness_UnspecifiedValuesAreUnobservable :
    State.Alike
      (stateOf (small none false) (Stf.start 3 false) (Dst.start true) { cbuf := [], clen := 0 })
      { stateOf (small none false) (Stf.start 3 true) (Dst.start false) { cbuf := [(0, true)], clen := 0 } with
        draws := 5 } :=
  ⟨rfl, rfl, ⟨rfl, rfl, rfl, rfl, rfl, rfl, rfl, rfl, by decide⟩, ⟨rfl, rfl, rfl, rfl, rfl, by decide⟩,
    ⟨rfl, fun a ha => absurd ha (by simp [stateOf])⟩⟩

end Sys2Proof.Tests
end

/-! # Runs from reset: what every step keeps holds of every state a run reaches -/

section

namespace Sys2Proof.Machine

/-- The induction over the steps of a run: a predicate that every step keeps holds of whatever state a run reaches from
a state that meets it. -/
theorem run_keeps_of_step_keeps {P : State → Prop} (hstep : ∀ {s t : State}, P s → step s = .next t → P t)
    {n : Nat} {s t : State} (hs : P s) (hrun : Sys2Proof.core.run n s = .next t) : P t := by
  induction n generalizing s with
  | zero => cases hrun; exact hs
  | succ n ih =>
    rw [core_run_succ] at hrun
    cases hnext : step s with
    | next m => rw [hnext] at hrun; exact ih (hstep hs hnext) hrun
    | fault r => rw [hnext] at hrun; cases hrun
    | refused r => rw [hnext] at hrun; cases hrun

/-- Each unit meets its invariant after reset, as it does after its INIT (R165). -/
theorem resetWith_inv (cfg : Config) : (State.resetWith cfg).Inv :=
  ⟨Stf.start_inv (Config.fits_zero cfg) _, Dst.start_inv cfg _, Ffx.start_inv cfg⟩

/-- Waiting at the port changes no unit, and a command that executes keeps the invariant (R31, R21, R15). -/
theorem step_keeps_inv {s t : State} (hs : s.Inv) (h : step s = .next t) : t.Inv := by
  obtain ⟨-, rfl⟩ | ⟨-, rest, i, -, -, hexec⟩ := step_cases h
  · exact hs
  · exact exec_keeps_inv (hs.setPort rest) hexec

/-- Settles O27, by induction over the steps of the run: reset meets the invariant whatever waits at the port, and every
step keeps it. -/
theorem everyRunMeetsTheInvariant : Obligations.EveryRunMeetsTheInvariant := by
  unfold Obligations.EveryRunMeetsTheInvariant
  intro cfg port n t hrun
  exact run_keeps_of_step_keeps step_keeps_inv ((resetWith_inv cfg).setPort port) hrun

end Sys2Proof.Machine

end

/-! # Memory: what a command leaves of the streams and cells (R50), and the index map of the stuffer (R51) -/

section

namespace Sys2Proof.Machine

/-! ## What is written stays (R50) -/

/-- On a filled buffer `FFX.BIT` writes behind every cell that has a value. -/
theorem Ffx.Filled.read_takeBit {u : Ffx} (h : u.Filled) (b : Bit) {a : Nat} {v : Bit} (ha : u.cbuf.read a = some v) :
    (u.takeBit b).cbuf.read a = some v := by
  have hlt : a < u.clen := by
    rw [h.read] at ha
    obtain ⟨hbits, -⟩ := List.getElem?_eq_some_iff.1 ha
    rw [h.length_bits] at hbits
    omega
  rw [Ffx.takeBit_cbuf]
  split
  · rwa [Cells.read_write_of_ne _ _ hlt.ne]
  · exact ha

/-- `RX.BIT` hands the extractor at most one bit, so it too keeps every cell that has a value (R141). -/
theorem read_chainBit {s : State} (h : s.ffx.Filled) (b : Bit) {a : Nat} {v : Bit} (ha : s.ffx.cbuf.read a = some v) :
    (s.chainBit b).ffx.cbuf.read a = some v := by
  rw [chainBit_ffx]
  split
  · exact ha
  · exact h.read_takeBit b ha

/-- Settles O24, by the eight things a command can do: a BIT extends the streams of its unit and writes behind the cells
that have a value, an INIT is excluded for its own unit, and the other units stay as they are. -/
theorem spacesAreAppendOnly : Obligations.SpacesAreAppendOnly := by
  unfold Obligations.SpacesAreAppendOnly
  intro i s t hs h
  have stf_same : s.stf.S <+: s.stf.S ∧ s.stf.F <+: s.stf.F ∧ s.stf.P <+: s.stf.P ∧ s.stf.M <+: s.stf.M :=
    ⟨List.prefix_rfl, List.prefix_rfl, List.prefix_rfl, List.prefix_rfl⟩
  have dst_same : s.dst.C <+: s.dst.C ∧ s.dst.D <+: s.dst.D := ⟨List.prefix_rfl, List.prefix_rfl⟩
  rcases exec_cases h with ⟨L, rfl, -, rfl⟩ | ⟨b, rfl, -, rfl⟩ | ⟨rfl, rfl⟩ | ⟨b, rfl, -, rfl⟩ | ⟨rfl, rfl⟩ |
    ⟨b, rfl, -, rfl⟩ | ⟨rfl, rfl⟩ | ⟨b, rfl, -, -, rfl⟩
  · exact ⟨fun hinit => absurd rfl (hinit L), fun _ _ => dst_same, fun _ _ _ _ ha => ha⟩
  · exact ⟨fun _ => s.stf.takeBit_extends _ b, fun _ _ => dst_same, fun _ _ _ _ ha => ha⟩
  · exact ⟨fun _ => stf_same, fun hinit => absurd rfl hinit, fun _ _ _ _ ha => ha⟩
  · exact ⟨fun _ => stf_same, fun _ _ => s.dst.takeBit_extends b, fun _ _ _ _ ha => ha⟩
  · exact ⟨fun _ => stf_same, fun _ _ => dst_same, fun hinit => absurd rfl hinit⟩
  · exact ⟨fun _ => stf_same, fun _ _ => dst_same, fun _ _ _ _ => hs.ffx.filled.read_takeBit b⟩
  · exact ⟨fun _ => stf_same, fun _ hinit => absurd rfl hinit, fun _ hinit => absurd rfl hinit⟩
  · rw [chainBit_stf, chainBit_dst]
    exact ⟨fun _ => stf_same, fun _ _ => s.dst.takeBit_extends b, fun _ _ _ _ => read_chainBit hs.ffx.filled b⟩

/-! ## The index map of the stuffer (R51) -/

namespace Stf

/-- A stuff position has no raw index. -/
theorem rawOf_of_mem_P {u : Stf} {j : Nat} (hj : j ∈ u.P) : u.rawOf j = none := if_neg fun h => h.2 hj

/-- Any other stuffed index has as raw index its distance from the stuff positions below it. -/
theorem rawOf_of_not_mem_P {u : Stf} {j : Nat} (hlt : j < u.scnt) (hj : j ∉ u.P) :
    u.rawOf j = some (j - (u.P.filter (· < j)).length) := if_pos ⟨hlt, hj⟩

variable {cfg : Config} {u : Stf}

/-- `M` holds exactly the stuffed indices that are no stuff position (R31). -/
theorem Inv.mem_M_iff (h : u.Inv cfg) (j : Nat) : j ∈ u.M ↔ j < u.scnt ∧ j ∉ u.P :=
  ⟨fun hm => ⟨(h.mem_P_or_M_iff j).1 (.inr hm), fun hp => h.not_mem_P_and_M j hp hm⟩,
    fun ⟨hlt, hp⟩ => ((h.mem_P_or_M_iff j).2 hlt).resolve_left hp⟩

/-- The place of an entry in `M` is what the stuff positions below it leave of it: `M` rises, so that many mapped bits
lie below the entry. -/
theorem Inv.sub_stuffed_below_eq (h : u.Inv cfg) {r j : Nat} (hr : u.M[r]? = some j) :
    j - (u.P.filter (· < j)).length = r := by
  have hlt : j < u.scnt := ((h.mem_M_iff j).1 (List.mem_of_getElem? hr)).1
  have hbelow := length_filter_lt_of_getElem u.M h.M_increasing r j hr
  have hsplit := h.below_split j hlt.le
  omega

end Stf

/-- Settles O36: a stuffed index that is no stuff position stands in `M` at one place only, and that place is its raw
index. -/
theorem rawIndexMapInverts : Obligations.RawIndexMapInverts := by
  unfold Obligations.RawIndexMapInverts
  intro cfg u h
  refine ⟨h.length_M, fun j => Stf.rawOf_of_mem_P, fun j hlt hj => ⟨Stf.rawOf_of_not_mem_P hlt hj, ?_⟩, fun r j hr => ?_⟩
  · obtain ⟨r, hr⟩ := List.mem_iff_getElem?.1 ((h.mem_M_iff j).2 ⟨hlt, hj⟩)
    rwa [h.sub_stuffed_below_eq hr]
  · obtain ⟨hlt, hj⟩ := (h.mem_M_iff j).1 (List.mem_of_getElem? hr)
    exact ⟨hj, by rw [Stf.rawOf_of_not_mem_P hlt hj, h.sub_stuffed_below_eq hr]⟩

end Sys2Proof.Machine

end

/-! # The command word: its rows (R63), its reserved words (R64), and the symbols it numbers (R69) -/

section

namespace Sys2Proof

open Decode Encode

/-! ## The commands of a unit, told apart by their words -/

/-- The four units: STF, DST, FFX, RX (R61). -/
theorem unit_cases (u : BitVec 2) : u = 0b00#2 ∨ u = 0b01#2 ∨ u = 0b10#2 ∨ u = 0b11#2 := by
  revert u; decide

theorem encode_initOf (u : BitVec 2) (L : Nat) :
    encode (initOf u L) = ⟨assemble u 0b00#2 false, if u = 0b00#2 then L else 0⟩ := by
  rcases unit_cases u with rfl | rfl | rfl | rfl <;> rfl

theorem encode_bitOf (u : BitVec 2) (b : Bit) : encode (bitOf u b) = ⟨assemble u 0b01#2 b, 0⟩ := by
  rcases unit_cases u with rfl | rfl | rfl | rfl <;> rfl

/-- Assembled words are equal only field by field. -/
theorem assemble_inj {u u' o o' : BitVec 2} {b b' : Bit} (h : assemble u o b = assemble u' o' b') :
    u = u' ∧ o = o' ∧ b = b' :=
  ⟨by simpa only [unitField_assemble] using congrArg unitField h,
    by simpa only [opField_assemble] using congrArg opField h,
    by simpa only [bitField_assemble] using congrArg bitField h⟩

/-- INIT commands are equal only for the same unit, and for STF only with the same operand (R62). -/
theorem initOf_eq_initOf_iff {u u' : BitVec 2} {L L' : Nat} :
    initOf u L = initOf u' L' ↔ u = u' ∧ (u = 0b00#2 → L = L') := by
  constructor
  · intro h
    have hword := congrArg encode h
    rw [encode_initOf, encode_initOf, Command.mk.injEq] at hword
    obtain ⟨hcmd, harg⟩ := hword
    obtain ⟨rfl, -, -⟩ := assemble_inj hcmd
    exact ⟨rfl, fun hu => by simpa only [if_pos hu] using harg⟩
  · rintro ⟨rfl, hL⟩
    by_cases hu : u = 0b00#2
    · rw [hL hu]
    · simp only [initOf, if_neg hu]

theorem bitOf_eq_bitOf_iff {u u' : BitVec 2} {b b' : Bit} : bitOf u b = bitOf u' b' ↔ u = u' ∧ b = b' := by
  constructor
  · intro h
    have hword := congrArg encode h
    rw [encode_bitOf, encode_bitOf, Command.mk.injEq] at hword
    obtain ⟨hu, -, hb⟩ := assemble_inj hword.1
    exact ⟨hu, hb⟩
  · rintro ⟨rfl, rfl⟩; rfl

theorem initOf_ne_bitOf (u u' : BitVec 2) (L : Nat) (b : Bit) : initOf u L ≠ bitOf u' b := by
  intro h
  have hword := congrArg encode h
  rw [encode_initOf, encode_bitOf, Command.mk.injEq] at hword
  obtain ⟨-, hop, -⟩ := assemble_inj hword.1
  exact absurd hop (by decide)

/-! ## The decoder, said once -/

/-- A word decodes to the INIT of its unit, with `b` = 0, or to the BIT of its unit (R61). -/
theorem decode_eq_ok_iff {c : Command} {i : Instr} :
    decode c = .ok i ↔ zeroField c.cmd = 0b000#3 ∧
      ((opField c.cmd = 0b00#2 ∧ bitField c.cmd = false ∧ i = initOf (unitField c.cmd) c.arg) ∨
        (opField c.cmd = 0b01#2 ∧ i = bitOf (unitField c.cmd) (bitField c.cmd))) := by
  unfold decode
  by_cases hz : zeroField c.cmd = 0b000#3
  · by_cases h0 : opField c.cmd = 0b00#2
    · cases hb : bitField c.cmd <;> simp [hz, h0, @eq_comm _ i]
    · by_cases h1 : opField c.cmd = 0b01#2 <;> simp [hz, h0, h1, @eq_comm _ i]
  · simp [hz]

/-- A word is some command exactly when `zero` is 000 and it is an INIT with `b` = 0 or a BIT. -/
theorem exists_decode_eq_ok_iff {c : Command} :
    (∃ i, decode c = .ok i) ↔ zeroField c.cmd = 0b000#3 ∧
      (opField c.cmd = 0b00#2 ∧ bitField c.cmd = false ∨ opField c.cmd = 0b01#2) := by
  simp only [decode_eq_ok_iff, exists_and_left, exists_or, exists_eq, and_true]

theorem exists_decode_eq_error_iff {c : Command} : (∃ why, decode c = .error why) ↔ ¬∃ i, decode c = .ok i := by
  cases decode c <;> simp

/-! ## The rows of the opcode map (R63) -/

/-- The row of an INIT holds one word. -/
theorem initRow_iff (w : BitVec 8) (u : BitVec 2) :
    w &&& 0xFF#8 = assemble u 0b00#2 false ↔
      zeroField w = 0b000#3 ∧ opField w = 0b00#2 ∧ bitField w = false ∧ u = unitField w := by
  rw [show w &&& 0xFF#8 = w from BitVec.and_allOnes]
  constructor
  · rintro rfl
    exact ⟨zeroField_assemble .., opField_assemble .., bitField_assemble .., (unitField_assemble ..).symm⟩
  · rintro ⟨hz, ho, hb, rfl⟩
    rw [← ho, ← hb, assemble_fields w hz]

/-- The mask of a BIT row leaves out `b`. -/
theorem and_bitMask_assemble (u o : BitVec 2) (b : Bit) : assemble u o b &&& 0xFE#8 = assemble u o false := by
  revert u o b; decide

theorem zeroField_and_bitMask (w : BitVec 8) : zeroField (w &&& 0xFE#8) = zeroField w := by
  revert w; decide

/-- The row of a BIT holds its word for both values of `b`. -/
theorem bitRow_iff (w : BitVec 8) (u : BitVec 2) :
    w &&& 0xFE#8 = assemble u 0b01#2 false ↔ zeroField w = 0b000#3 ∧ opField w = 0b01#2 ∧ u = unitField w := by
  constructor
  · intro h
    have hz : zeroField w = 0b000#3 := by rw [← zeroField_and_bitMask, h, zeroField_assemble]
    rw [← assemble_fields w hz, and_bitMask_assemble] at h
    obtain ⟨hu, ho, -⟩ := assemble_inj h
    exact ⟨hz, ho, hu.symm⟩
  · rintro ⟨hz, ho, rfl⟩
    rw [← ho, ← and_bitMask_assemble _ _ (bitField w), assemble_fields w hz]

/-- A word decodes to the INIT of a unit exactly when it is in its row; the operand counts for STF only (R62). -/
theorem decode_eq_initOf_iff {c : Command} (u : BitVec 2) (L : Nat) :
    decode c = .ok (initOf u L) ↔ c.cmd &&& 0xFF#8 = assemble u 0b00#2 false ∧ (u = 0b00#2 → L = c.arg) := by
  rw [decode_eq_ok_iff, initRow_iff, initOf_eq_initOf_iff]
  simp only [initOf_ne_bitOf, and_false, or_false, and_assoc]

/-- A word decodes to the BIT of a unit exactly when it is in its row and carries that bit. -/
theorem decode_eq_bitOf_iff {c : Command} (u : BitVec 2) (b : Bit) :
    decode c = .ok (bitOf u b) ↔ c.cmd &&& 0xFE#8 = assemble u 0b01#2 false ∧ b = c.cmd.getLsbD 0 := by
  rw [decode_eq_ok_iff, bitRow_iff, bitOf_eq_bitOf_iff]
  simp only [(initOf_ne_bitOf _ _ _ _).symm, and_false, false_or, and_assoc, bitField]

/-- Of entries that pairwise do not both pass a test at most one passes it. -/
theorem length_filter_le_one {α : Type} {l : List α} {R : α → α → Prop} {p : α → Bool} (hl : l.Pairwise R)
    (hp : ∀ a b, R a b → ¬(p a = true ∧ p b = true)) : (l.filter p).length ≤ 1 := by
  rcases hf : l.filter p with _ | ⟨a, _ | ⟨b, rest⟩⟩
  · exact Nat.zero_le 1
  · exact Nat.le_refl 1
  · have hpass : ∀ x ∈ a :: b :: rest, p x = true := fun x hx => (List.mem_filter.1 (hf ▸ hx)).2
    have hpair : (a :: b :: rest).Pairwise R := hf ▸ hl.filter p
    exact absurd ⟨hpass a (by simp), hpass b (by simp)⟩ (hp a b (List.rel_of_pairwise_cons hpair (by simp)))

theorem length_filter_opcodeRows_le_one (w : BitVec 8) : (opcodeRows.filter (fun r => w &&& r.2 == r.1)).length ≤ 1 :=
  length_filter_le_one opcodeRows_disjoint fun r q hdisjoint hboth => hdisjoint w (by simpa using hboth)

/-- The twelve legal words are those with the fields of a command. -/
theorem mem_legalWords_iff (w : BitVec 8) :
    w ∈ legalWords ↔ zeroField w = 0b000#3 ∧ (opField w = 0b00#2 ∧ bitField w = false ∨ opField w = 0b01#2) := by
  revert w; decide

/-- The legal words, picked out of the 256. -/
theorem filter_legalWords_perm :
    ((List.range 256).filter (fun w => legalWords.contains (BitVec.ofNat 8 w))).Perm (legalWords.map BitVec.toNat) := by
  refine (List.perm_ext_iff_of_nodup (List.nodup_range.filter _) (by decide)).2 fun n => ?_
  simp only [List.mem_filter, List.mem_range, List.contains_iff_mem, List.mem_map]
  constructor
  · exact fun ⟨hn, hmem⟩ => ⟨_, hmem, BitVec.toNat_ofNat .. ▸ Nat.mod_eq_of_lt hn⟩
  · rintro ⟨w, hmem, rfl⟩
    exact ⟨w.isLt, by rwa [BitVec.ofNat_toNat, BitVec.setWidth_eq]⟩

/-- Twelve of the 256 words are legal, and the others are 244. -/
theorem length_filter_not_legalWords :
    ((List.range 256).filter (fun w => !legalWords.contains (BitVec.ofNat 8 w))).length = 244 := by
  have htotal := List.length_eq_length_filter_add (l := List.range 256) fun w => legalWords.contains (BitVec.ofNat 8 w)
  rw [filter_legalWords_perm.length_eq, List.length_range, List.length_map] at htotal
  have htwelve : legalWords.length = 12 := rfl
  omega

/-- Settles O2: the four INIT rows are the rows of `initOf` and the four BIT rows those of `bitOf`, one for each unit. -/
theorem legalWordsMatchTheirRows : Obligations.LegalWordsMatchTheirRows := by
  unfold Obligations.LegalWordsMatchTheirRows
  intro c
  have initRow : ∀ u : BitVec 2, u ≠ 0b00#2 →
      (decode c = .ok (initOf u c.arg) ↔ c.cmd &&& 0xFF#8 = assemble u 0b00#2 false) := fun u hu => by
    rw [decode_eq_initOf_iff, and_iff_left fun h => absurd h hu]
  refine ⟨fun L => ?_, decode_eq_bitOf_iff 0b00#2, initRow 0b01#2 (by decide), decode_eq_bitOf_iff 0b01#2,
    initRow 0b10#2 (by decide), decode_eq_bitOf_iff 0b10#2, initRow 0b11#2 (by decide), decode_eq_bitOf_iff 0b11#2,
    length_filter_opcodeRows_le_one c.cmd, exists_decode_eq_ok_iff.trans (mem_legalWords_iff c.cmd).symm⟩
  exact (decode_eq_initOf_iff 0b00#2 L).trans (and_congr_right' (forall_prop_of_true rfl))

end Sys2Proof

namespace Sys2Proof.Machine

open Decode

/-! ## The reserved words (R64) -/

/-- Only the decoder finds a word reserved: a command that executes may be refused for its counters or its operand. -/
theorem exec_ne_reservedWord (i : Instr) (s : State) (why : Reserved) : exec i s ≠ .refused (.reservedWord why) := by
  have guarded : ∀ (ok : Bool) (t : State), unlessOverflow ok t ≠ .refused (.reservedWord why) := by
    intro ok t h
    cases ok <;> cases h
  cases i with
  | stfInit L =>
    simp only [exec, execStfInit]
    split
    · nofun
    · nofun
  | stfBit b => exact guarded _ _
  | dstInit => nofun
  | dstBit b => exact guarded _ _
  | ffxInit => nofun
  | ffxBit b => exact guarded _ _
  | rxInit => nofun
  | rxBit b => exact guarded _ _

/-- The step on a port that holds a reserved word (R153). -/
theorem step_of_decode_error {s : State} {c : Command} {rest : List Command} {why : Reserved}
    (hp : s.port = c :: rest) (hd : decode c = .error why) : step s = .refused (.reservedWord why) := by
  unfold step State.takeCommand
  rw [hp]
  dsimp only
  rw [hd]
  rfl

/-- A step refuses a word as reserved exactly when the decoder rejects it, with the decoder's reason. -/
theorem step_eq_reservedWord_iff {s : State} {c : Command} {rest : List Command} (hp : s.port = c :: rest)
    (why : Reserved) : step s = .refused (.reservedWord why) ↔ decode c = .error why := by
  cases hd : decode c with
  | error why' => rw [step_of_decode_error hp hd]; simp
  | ok i => rw [step_of_decode hp hd]; simp [exec_ne_reservedWord]

/-- Every word but those with the fields of a command is reserved, for one of the reasons R64 lists. -/
theorem not_legal_fields_iff (op : BitVec 2) (zero : BitVec 3) (b : Bit) :
    ¬(zero = 0b000#3 ∧ (op = 0b00#2 ∧ b = false ∨ op = 0b01#2)) ↔
      (op = 0b10#2 ∨ op = 0b11#2 ∨ zero ≠ 0b000#3 ∨ (op = 0b00#2 ∧ b = true)) := by
  revert op zero b; decide

/-- Settles O3: a step refuses as reserved what the decoder rejects, which is every word without the fields of a command;
the legal words are counted out of the 256. -/
theorem reservedWordsAreRefused : Obligations.ReservedWordsAreRefused := by
  unfold Obligations.ReservedWordsAreRefused
  refine ⟨fun s c rest hp => ?_, length_filter_not_legalWords⟩
  rw [exists_congr (step_eq_reservedWord_iff hp), exists_decode_eq_error_iff, exists_decode_eq_ok_iff]
  exact not_legal_fields_iff (opField c.cmd) (zeroField c.cmd) (bitField c.cmd)

/-! ## The raw index of a symbol (R69, R51) -/

namespace Stf

variable {cfg : Config} {u : Stf}

/-- A symbol stands at an index below `scnt`, and its flag says whether that is a stuff position (R16). -/
theorem Inv.symbols_getElem? (h : u.Inv cfg) {j : Nat} {x f : Bit} (hj : u.symbols[j]? = some (x, f)) :
    j < u.scnt ∧ f = decide (j ∈ u.P) := by
  obtain ⟨-, hf⟩ := List.getElem?_zip_eq_some.1 hj
  rw [h.flags_mark, List.getElem?_map, Option.map_eq_some_iff] at hf
  obtain ⟨k, hk, rfl⟩ := hf
  obtain ⟨hlt, rfl⟩ := List.getElem?_eq_some_iff.1 hk
  rw [List.getElem_range]
  exact ⟨by simpa using hlt, rfl⟩

/-- The flags of the first `j` symbols, as `F` marks them (R16). -/
theorem Inv.flags_take_symbols (h : u.Inv cfg) {j : Nat} (hj : j ≤ u.scnt) :
    (u.symbols.take j).map Prod.snd = (List.range j).map (fun k => decide (k ∈ u.P)) := by
  have hflags : u.symbols.map Prod.snd = u.F := List.map_snd_zip (by rw [h.length_S, h.length_F])
  rw [List.map_take, hflags, h.flags_mark, ← List.map_take, List.take_range, Nat.min_eq_left hj]

/-- The indices below `j` that are no stuff position are the entries of `M` below `j` (R31). -/
theorem Inv.filter_not_mem_P_perm (h : u.Inv cfg) {j : Nat} (hj : j ≤ u.scnt) :
    ((List.range j).filter (fun k => decide (k ∉ u.P))).Perm (u.M.filter (· < j)) := by
  refine (List.perm_ext_iff_of_nodup (List.nodup_range.filter _) (h.M_increasing.nodup.filter _)).2 fun k => ?_
  simp only [List.mem_filter, List.mem_range, decide_eq_true_eq, h.mem_M_iff]
  constructor
  · exact fun ⟨hk, hp⟩ => ⟨⟨by omega, hp⟩, hk⟩
  · exact fun ⟨⟨_, hp⟩, hk⟩ => ⟨hk, hp⟩

/-- As many symbols before index `j` are no stuff bits as there are entries of `M` below `j`. -/
theorem Inv.count_false_symbols (h : u.Inv cfg) {j : Nat} (hj : j ≤ u.scnt) :
    ((u.symbols.take j).map Prod.snd).count false = (u.M.filter (· < j)).length := by
  rw [h.flags_take_symbols hj, ← (h.filter_not_mem_P_perm hj).length_eq, List.count, List.countP_map,
    List.countP_eq_length_filter]
  congr 2
  ext k
  simp

end Stf

/-- Settles O37: below the symbol's index lie its stuff positions and the entries of `M`, and the symbols without a flag
are the latter. -/
theorem symbolsNumberTheRawBits : Obligations.SymbolsNumberTheRawBits := by
  unfold Obligations.SymbolsNumberTheRawBits
  intro cfg u h j x
  refine ⟨fun hj => ?_, fun hj => ?_⟩
  · obtain ⟨hlt, hflag⟩ := h.symbols_getElem? hj
    have hsplit := h.below_split j hlt.le
    rw [Stf.rawOf_of_not_mem_P hlt (of_decide_eq_false hflag.symm), h.count_false_symbols hlt.le]
    congr 1
    omega
  · exact Stf.rawOf_of_mem_P (of_decide_eq_true (h.symbols_getElem? hj).2.symm)

end Sys2Proof.Machine

end

/-! # The stuffer: within and due (R82, R28), its commands (R80, R81, R83, R89), and the loop of the source (R84) -/

section

namespace Sys2Proof.Machine

/-! ## Within the protected length (R82) -/

/-- Within is `i < L` or `i <= L`, as the reading has it (R82). -/
theorem within_iff (inclusive : Bool) (i L : Nat) :
    within inclusive i L = true ↔ if inclusive then i ≤ L else i < L := by
  cases inclusive <;> simp [within]

/-- Once the raw index has passed the protected length it stays past it (R82). -/
theorem within_eq_false_of_le {inclusive : Bool} {i j L : Nat} (hij : i ≤ j) (hi : within inclusive i L = false) :
    within inclusive j L = false := by
  rw [Bool.eq_false_iff, Ne, within_iff] at hi ⊢
  cases inclusive
  · simp only [Bool.false_eq_true, if_false] at hi ⊢; omega
  · simp only [if_true] at hi ⊢; omega

/-- All of the first `n` raw indices are within the protected length. -/
def Protected (inclusive : Bool) (n L : Nat) : Prop := ∀ i, i < n → within inclusive i L = true

theorem protected_of_le {inclusive : Bool} {n L : Nat} (h : n ≤ L) : Protected inclusive n L := by
  intro i hi
  rw [within_iff]
  split <;> omega

/-- The inclusive reading protects one more bit (R82). -/
theorem protected_inclusive {n L : Nat} (h : n ≤ L + 1) : Protected true n L := by
  intro i hi
  rw [within_iff, if_pos rfl]
  omega

theorem protected_succ_iff (inclusive : Bool) (n L : Nat) :
    Protected inclusive (n + 1) L ↔ Protected inclusive n L ∧ within inclusive n L = true := by
  simp only [Protected, Nat.forall_lt_succ_right]

namespace Stf

variable {inclusive : Bool} {cfg : Config} {u : Stf}

/-- Within the protected length the run alone decides (R28). -/
theorem stuffDue_of_within (h : within inclusive u.rcnt u.plen = true) :
    u.stuffDue inclusive = decide (u.run = 5) := by
  simp [stuffDue, h]

/-- Past the protected length nothing is due, and `STF.BIT` only copies (R81). -/
theorem takeBit_of_not_within (h : within inclusive u.rcnt u.plen = false) (b : Bit) :
    u.takeBit inclusive b = u.copyBit b := by
  simp [takeBit, stuffDue, h]

/-- When a stuff bit is due the output ends with five copies of `last` (R12, R13). -/
theorem Inv.replicate_suffix (h : u.Inv cfg) (h5 : u.run = 5) : List.replicate 5 u.last <:+ u.S := by
  have hrun := h.run_eq
  simp only [runMax] at hrun
  exact replicate_suffix_of_le_trailingRun (h.last_eq (by omega)) (by omega)

end Stf

/-! ## The commands of the stuffer (R80, R81) -/

/-- Settles O11: the state that `STF.INIT` leaves is the start of a pass, with only STF replaced. -/
theorem stfInitStartsPass : Obligations.StfInitStartsPass := by
  unfold Obligations.StfInitStartsPass
  intro s L hL
  exact ⟨_, exec_stfInit hL, rfl, rfl, rfl, rfl, rfl, rfl, rfl, rfl, rfl, rfl, rfl, rfl⟩

/-- Settles O13: the two cases of the due condition are the two equations of `STF.BIT`. -/
theorem stfBitEmitsStuffBitWhenDue : Obligations.StfBitEmitsStuffBitWhenDue := by
  unfold Obligations.StfBitEmitsStuffBitWhenDue
  intro s b hfits
  refine ⟨_, exec_stfBit b hfits, ⟨fun hdue => ?_, fun hdue => ?_⟩, Stf.takeBit_last _ _ _, Stf.takeBit_rcnt _ _ _,
    Stf.takeBit_plen _ _ _, rfl, rfl, rfl, rfl⟩
  · rw [State.setStf_stf, Stf.takeBit_of_due ((Stf.stuffDue_iff _ _).2 (by simpa using hdue))]
    exact ⟨rfl, rfl, rfl, rfl, rfl, rfl⟩
  · have hdue' : s.stf.stuffDue s.cfg.plenInclusive = false := by
      rw [Bool.eq_false_iff, Ne, Stf.stuffDue_iff]; simpa using hdue
    rw [State.setStf_stf, Stf.takeBit_of_not_due hdue']
    exact ⟨rfl, rfl, rfl, rfl, rfl, rfl⟩

/-- Settles O38: `STF.INIT` starts the pass and `STF.BITS` folds over it; two symbols a bit are room enough. -/
theorem stuffCommandsComputeStuff : Obligations.StuffCommandsComputeStuff := by
  unfold Obligations.StuffCommandsComputeStuff
  refine ⟨fun s R L hL hR => ?_, fun inclusive L => rfl⟩
  have hbits := runCommands_stfBits R (s.setStf (Stf.start L s.freeBit)).drawn (by simpa [Stf.start] using hR)
  refine ⟨_, (runCommands_cons (exec_stfInit hL) _).trans hbits, ?_⟩
  rw [stuffPass_streams s.cfg.plenInclusive L s.freeBit R]
  exact ⟨rfl, rfl, rfl, rfl, rfl⟩

/-- A pass over `R ++ T` goes on from the pass over `R`, and the streams only grow at their end (R89). -/
theorem stuff_prefix_append (inclusive : Bool) (R T : List Bit) (L : Nat) :
    (stuff inclusive R L).S <+: (stuff inclusive (R ++ T) L).S ∧
    (stuff inclusive R L).P <+: (stuff inclusive (R ++ T) L).P ∧
    (stuff inclusive R L).M <+: (stuff inclusive (R ++ T) L).M := by
  obtain ⟨hS, -, hP, hM⟩ := foldl_takeBit_extends inclusive T (stuffPass inclusive L (Config.freeBit 0) R)
  rw [← stuffPass_append] at hS hP hM
  exact ⟨hS, hP, hM⟩

/-- Settles O43: the rest of the pass only adds to the streams. -/
theorem stuffIsStableUnderExtension : Obligations.StuffIsStableUnderExtension := by
  unfold Obligations.StuffIsStableUnderExtension
  exact stuff_prefix_append

/-! ## The loop of the source (R84) -/

/-- The loop of the source in step with the stuffer: it has taken the same bits and emitted the same symbols. Its run
does not saturate, and passes five only where no stuff bit can be due any more. -/
structure LoopState.InStep (inclusive : Bool) (v : LoopState) (u : Stf) : Prop where
  S : v.S = u.S
  P : v.P = u.P
  last : v.last = u.last
  i : v.i = u.rcnt
  scnt : u.scnt = u.S.length
  run_pos : 1 ≤ v.run
  run : u.run = min v.run 5
  long_run : 5 < v.run → within inclusive u.rcnt u.plen = false

namespace LoopState.InStep

variable {inclusive : Bool} {v : LoopState} {u : Stf}

/-- The loop inserts exactly when a stuff bit is due. -/
theorem insert_iff (h : InStep inclusive v u) :
    (within inclusive v.i u.plen = true ∧ v.run = runMax) ↔ u.stuffDue inclusive = true := by
  have hrun := h.run
  have hlong := h.long_run
  simp only [Stf.stuffDue, runMax, Bool.and_eq_true, decide_eq_true_eq, h.i]
  constructor
  · exact fun ⟨hw, h5⟩ => ⟨by omega, hw⟩
  · refine fun ⟨h5, hw⟩ => ⟨hw, ?_⟩
    by_contra hne
    rw [hlong (by omega)] at hw
    cases hw

/-- An iteration that inserts is the stuff event, and looks at no bit. -/
theorem insertStuff (h : InStep inclusive v u) (hdue : u.stuffDue inclusive = true) (b : Bit) :
    InStep inclusive (v.iterate inclusive u.plen b) u.insertStuff := by
  rw [iterate, if_pos (h.insert_iff.2 hdue)]
  obtain ⟨hS, hP, hlast, hi, hscnt, -, -, -⟩ := h
  refine ⟨?_, ?_, ?_, hi, ?_, le_refl 1, rfl, fun hlt => by simp at hlt⟩
  · simp [Stf.insertStuff, Stf.emit, hS, hlast]
  · simp [Stf.insertStuff, Stf.emit, hS, hP, hscnt]
  · simp [Stf.insertStuff, Stf.emit, hlast]
  · simp [Stf.insertStuff, Stf.emit, hscnt]

/-- Any other iteration takes the bit as the stuffer copies it. -/
theorem copyBit (h : InStep inclusive v u) (hdue : u.stuffDue inclusive = false) (b : Bit) :
    InStep inclusive (v.iterate inclusive u.plen b) (u.copyBit b) := by
  rw [iterate, if_neg (by rw [h.insert_iff, hdue]; decide), Stf.copyBit_eq]
  have hstays : v.run = 5 → within inclusive (u.rcnt + 1) u.plen = false := fun h5 => by
    refine within_eq_false_of_le (Nat.le_succ _) ?_
    simpa [Stf.stuffDue, h.run, h5] using hdue
  have hpast : 5 < v.run → within inclusive (u.rcnt + 1) u.plen = false := fun hlt =>
    within_eq_false_of_le (Nat.le_succ _) (h.long_run hlt)
  obtain ⟨hS, hP, hlast, hi, hscnt, hpos, hrun, -⟩ := h
  by_cases hb : b = v.last
  · rw [if_pos hb]
    refine ⟨by simp [hS], hP, hb.symm, by simp [hi], by simp [hscnt], by simp, ?_, fun hlt => ?_⟩
    · rw [Stf.nextRun, if_pos ⟨by omega, hb.trans hlast⟩]; dsimp only; omega
    · rcases Nat.lt_or_ge 5 v.run with h5 | h5
      · exact hpast h5
      · exact hstays (by dsimp only at hlt; omega)
  · rw [if_neg hb]
    refine ⟨by simp [hS], hP, rfl, by simp [hi], by simp [hscnt], le_refl 1, ?_, fun hlt => by simp at hlt⟩
    exact if_neg fun hcont => hb (hcont.2.trans hlast.symm)

end LoopState.InStep

theorem Stf.insertStuff_not_due (inclusive : Bool) (u : Stf) : u.insertStuff.stuffDue inclusive = false := rfl

theorem stuffLoopFrom_succ {inclusive : Bool} {R : List Bit} {L : Nat} {v : LoopState} {b : Bit} (hb : R[v.i]? = some b)
    (fuel : Nat) :
    stuffLoopFrom inclusive R L (fuel + 1) v = stuffLoopFrom inclusive R L fuel (v.iterate inclusive L b) := by
  rw [stuffLoopFrom, hb]

theorem stuffLoopFrom_of_length_le {inclusive : Bool} {R : List Bit} {L : Nat} {v : LoopState} (h : R.length ≤ v.i)
    (fuel : Nat) : stuffLoopFrom inclusive R L fuel v = v := by
  cases fuel with
  | zero => rfl
  | succ fuel => rw [stuffLoopFrom, List.getElem?_eq_none h]

/-- One or two iterations of the loop are one `STF.BIT`. -/
theorem LoopState.InStep.takeBit {inclusive : Bool} {v : LoopState} {u : Stf} (h : v.InStep inclusive u) {R : List Bit}
    {b : Bit} (hb : R[v.i]? = some b) (fuel : Nat) :
    ∃ w fuel', w.InStep inclusive (u.takeBit inclusive b) ∧ fuel ≤ fuel' ∧
      stuffLoopFrom inclusive R u.plen (fuel + 2) v = stuffLoopFrom inclusive R u.plen fuel' w := by
  rw [stuffLoopFrom_succ hb, Stf.takeBit]
  cases hdue : u.stuffDue inclusive with
  | false => exact ⟨_, fuel + 1, h.copyBit hdue b, Nat.le_succ _, rfl⟩
  | true =>
    have hinsert := h.insertStuff hdue b
    have hb' : R[(v.iterate inclusive u.plen b).i]? = some b := by rw [hinsert.i, ← hb, h.i]; rfl
    exact ⟨_, fuel, hinsert.copyBit (Stf.insertStuff_not_due _ _) b, le_refl _, stuffLoopFrom_succ hb' fuel⟩

/-- With two iterations for each bit left, the loop ends in step with the pass over the rest of the input. -/
theorem LoopState.InStep.foldl_takeBit {inclusive : Bool} {R T : List Bit} {v : LoopState} {u : Stf}
    (h : v.InStep inclusive u) (hT : R.drop v.i = T) {fuel : Nat} (hfuel : 2 * T.length ≤ fuel) :
    (stuffLoopFrom inclusive R u.plen fuel v).InStep inclusive (T.foldl (Stf.takeBit inclusive) u) := by
  induction T generalizing v u fuel with
  | nil =>
    rw [stuffLoopFrom_of_length_le (List.drop_eq_nil_iff.1 hT)]
    exact h
  | cons b T ih =>
    have hb : R[v.i]? = some b := by rw [← List.head?_drop, hT]; rfl
    obtain ⟨fuel, rfl⟩ : ∃ k, fuel = k + 2 := ⟨fuel - 2, by simp at hfuel; omega⟩
    obtain ⟨w, fuel', hw, hle, heq⟩ := h.takeBit hb fuel
    have hrest : R.drop w.i = T := by
      rw [hw.i, Stf.takeBit_rcnt, ← h.i, ← List.tail_drop, hT]; rfl
    rw [heq, List.foldl_cons, ← Stf.takeBit_plen inclusive u b]
    exact ih hw hrest (by simp at hfuel; omega)

/-- Settles O39, by a simulation: the loop starts in step with the stuffer after the first bit, and each `STF.BIT` is one
or two of its iterations. -/
theorem stuffIsTheSourceLoop : Obligations.StuffIsTheSourceLoop := by
  unfold Obligations.StuffIsTheSourceLoop
  intro inclusive R L
  cases R with
  | nil => rfl
  | cons b T =>
    have hstart : LoopState.InStep inclusive { S := [b], P := [], last := b, run := 1, i := 1 }
        (stuffPass inclusive L (Config.freeBit 0) [b]) := by
      rw [show stuffPass inclusive L (Config.freeBit 0) [b] = _ from Stf.takeBit_of_not_due rfl b]
      exact ⟨rfl, rfl, rfl, rfl, rfl, le_refl 1, rfl, fun hlt => by simp at hlt⟩
    have hend := hstart.foldl_takeBit (R := b :: T) (T := T) rfl (fuel := 2 * (b :: T).length) (by simp)
    rw [← stuffPass_append, stuffPass_plen] at hend
    exact Prod.ext hend.S hend.P

end Sys2Proof.Machine

end

/-! # Runs in the stuffer's output (R87) and the two readings of the protected boundary (R82) -/

section

namespace Sys2Proof.Machine

/-! ## No run of six in the protected part (R87) -/

/-- `STF.BIT` within the protected length makes no run of six: a bit joins at most four equal ones, and the bits about a
stuff bit join at most one. -/
theorem Stf.Inv.takeBit_noRunOfSix {inclusive : Bool} {cfg : Config} {u : Stf} (h : u.Inv cfg)
    (hw : within inclusive u.rcnt u.plen = true) (hS : NoRunOfSix u.S) (b : Bit) :
    NoRunOfSix (u.takeBit inclusive b).S := by
  have hrun := h.run_eq
  simp only [runMax] at hrun
  by_cases h5 : u.run = 5
  · have hbreak : trailingRun (u.S ++ [!u.last]) = 1 := by
      rw [trailingRun_append, h.last_eq (by omega), if_neg (by simp)]
    have hnext : trailingRun (u.S ++ [!u.last] ++ [b]) ≤ 5 := by
      rw [trailingRun_append]; split <;> omega
    rw [Stf.takeBit_of_due (by rw [Stf.stuffDue_of_within hw, decide_eq_true h5])]
    simpa using (hS.append _ _ (by omega)).append _ _ hnext
  · rw [Stf.takeBit_of_not_due (by rw [Stf.stuffDue_of_within hw, decide_eq_false h5])]
    refine hS.append _ _ ?_
    rw [trailingRun_append]
    split <;> omega

/-- A pass that never leaves the protected length makes no run of six. -/
theorem noRunOfSix_stuffPass {inclusive : Bool} {L : Nat} (p : Bit) {R : List Bit}
    (h : Protected inclusive R.length L) : NoRunOfSix (stuffPass inclusive L p R).S := by
  induction R using List.reverseRecOn with
  | nil => exact fun b hb => by simpa [Stf.start] using hb.length_le
  | append_singleton R b ih =>
    rw [List.length_append, List.length_singleton, protected_succ_iff] at h
    rw [stuffPass_snoc]
    exact (stuffPass_inv inclusive L p R).takeBit_noRunOfSix (by simpa using h.2) (ih h.1) b

/-- Up to the bit that raw index `m` maps to, the output is free of runs of six if raw indices `0 .. m` are within the
protected length. -/
theorem noRunOfSix_take {inclusive : Bool} {L : Nat} (p : Bit) {R : List Bit} {m j : Nat}
    (hj : (stuffPass inclusive L p R).M[m]? = some j) (h : Protected inclusive (m + 1) L) :
    NoRunOfSix ((stuffPass inclusive L p R).S.take (j + 1)) := by
  have hm : m < R.length := by
    rw [← stuffPass_rcnt inclusive L p R, ← (stuffPass_inv inclusive L p R).length_M]
    exact (List.getElem?_eq_some_iff.1 hj).1
  rw [stuffPass_take inclusive L p R m j hm hj]
  refine noRunOfSix_stuffPass p ?_
  rwa [List.length_take, Nat.min_eq_left hm]

/-! ## What stands about a stuff bit (R87) -/

/-- At index `p` of `S` stands the complement of the five equal bits before it, and a further bit follows. -/
def StuffedAt (S : List Bit) (p : Nat) : Prop :=
  ∃ A b c, A.length + 5 = p ∧ A ++ (List.replicate 5 b ++ [!b, c]) <+: S

namespace StuffedAt

variable {S T : List Bit} {p q : Nat}

theorem mono (h : StuffedAt S p) (hST : S <+: T) : StuffedAt T p := by
  obtain ⟨A, b, c, hp, hS⟩ := h
  exact ⟨A, b, c, hp, hS.trans hST⟩

theorem five_le (h : StuffedAt S p) : 5 ≤ p := by
  obtain ⟨A, b, c, hp, -⟩ := h
  omega

theorem add_two_le (h : StuffedAt S p) : p + 2 ≤ S.length := by
  obtain ⟨A, b, c, hp, hS⟩ := h
  have := hS.length_le
  simp at this
  omega

theorem window (h : StuffedAt S p) : ∃ b, (S.drop (p - 5)).take 6 = List.replicate 5 b ++ [!b] := by
  obtain ⟨A, b, c, rfl, T, rfl⟩ := h
  refine ⟨b, ?_⟩
  rw [Nat.add_sub_cancel, List.append_assoc, List.drop_left]
  rfl

/-- The five bits before the stuff bit are equal, and it is none of them. -/
theorem getElem? (h : StuffedAt S p) : ∃ b, (∀ j, p ≤ j + 5 → j < p → S[j]? = some b) ∧ S[p]? = some !b := by
  obtain ⟨b, hb⟩ := h.window
  have hp := h.five_le
  have hS : ∀ i, i < 6 → S[p - 5 + i]? = (List.replicate 5 b ++ [!b])[i]? := fun i hi => by
    rw [← hb, List.getElem?_take_of_lt hi, List.getElem?_drop]
  refine ⟨b, fun j hle hlt => ?_, ?_⟩
  · obtain ⟨i, rfl⟩ : ∃ i, j = p - 5 + i := ⟨j - (p - 5), by omega⟩
    rw [hS i (by omega), List.getElem?_append_left (by simp; omega), List.getElem?_replicate_of_lt (by omega)]
  · have := hS 5 (by decide)
    rwa [Nat.sub_add_cancel hp] at this

/-- Two stuff bits are five apart: the one cannot stand among the equal bits before the other, as it differs from the bit
before it. -/
theorem add_five_le (hp : StuffedAt S p) (hq : StuffedAt S q) (hpq : p < q) : p + 5 ≤ q := by
  by_contra hclose
  have h5 := hp.five_le
  obtain ⟨b, hb, hnot⟩ := hp.getElem?
  obtain ⟨c, hc, -⟩ := hq.getElem?
  have hbefore := hb (p - 1) (by omega) (by omega)
  rw [hc (p - 1) (by omega) (by omega)] at hbefore
  rw [hc p (by omega) hpq] at hnot
  exact Bool.not_ne_self b (Option.some.inj (hnot.symm.trans hbefore))

end StuffedAt

/-- The stuff event puts its bit behind five equal ones, and the operand of `STF.BIT` follows (R81). -/
theorem Stf.Inv.stuffedAt_scnt {inclusive : Bool} {cfg : Config} {u : Stf} (h : u.Inv cfg)
    (hdue : u.stuffDue inclusive = true) (b : Bit) : StuffedAt (u.takeBit inclusive b).S u.scnt := by
  obtain ⟨A, hA⟩ := h.replicate_suffix ((Stf.stuffDue_iff _ _).1 hdue).1
  refine ⟨A, u.last, b, ?_, ?_⟩
  · rw [← h.length_S, ← hA]; simp
  · rw [Stf.takeBit_of_due hdue, ← List.append_assoc, hA]

/-- Every recorded stuff position of a pass is one. -/
theorem stuffedAt_of_mem_P {inclusive : Bool} {L : Nat} {p : Bit} {R : List Bit} {q : Nat}
    (hq : q ∈ (stuffPass inclusive L p R).P) : StuffedAt (stuffPass inclusive L p R).S q := by
  induction R using List.reverseRecOn with
  | nil => simp [Stf.start] at hq
  | append_singleton R b ih =>
    rw [stuffPass_snoc] at hq ⊢
    have hS := ((stuffPass inclusive L p R).takeBit_extends inclusive b).1
    cases hdue : (stuffPass inclusive L p R).stuffDue inclusive with
    | false =>
      rw [Stf.takeBit_of_not_due hdue] at hq
      exact (ih hq).mono hS
    | true =>
      have hnew := (stuffPass_inv inclusive L p R).stuffedAt_scnt hdue b
      rw [Stf.takeBit_of_due hdue, List.mem_append, List.mem_singleton] at hq
      rcases hq with hq | rfl
      · exact (ih hq).mono hS
      · exact hnew

/-- Settles O41: the output up to a protected bit is that of a pass that stays within the protected length, which `STF.BIT`
keeps free of runs of six; and what the stuff event leaves about its bit stays there. -/
theorem protectedOutputHasNoRunOfSix : Obligations.ProtectedOutputHasNoRunOfSix := by
  unfold Obligations.ProtectedOutputHasNoRunOfSix
  intro inclusive R L
  refine ⟨fun j hj hpos => noRunOfSix_take _ hj (protected_of_le (by omega)), ?_, fun p hp => ?_⟩
  · rintro j rfl hj
    exact noRunOfSix_take _ hj (protected_inclusive (le_refl _))
  · have hstuffed := stuffedAt_of_mem_P hp
    exact ⟨hstuffed.five_le, hstuffed.window⟩

/-! ## The two readings (R82) -/

/-- Past the protected length the rest of a pass only copies, in either reading. -/
theorem foldl_takeBit_of_not_within {inclusive : Bool} {u : Stf} (h : within inclusive u.rcnt u.plen = false)
    (T : List Bit) : T.foldl (Stf.takeBit inclusive) u = T.foldl Stf.copyBit u := by
  induction T generalizing u with
  | nil => rfl
  | cons b T ih =>
    have hnext : within inclusive (u.copyBit b).rcnt (u.copyBit b).plen = false := by
      rw [Stf.copyBit_eq]; exact within_eq_false_of_le (Nat.le_succ _) h
    rw [List.foldl_cons, List.foldl_cons, Stf.takeBit_of_not_within h, ih hnext]

/-- Copying records no stuff position. -/
theorem foldl_copyBit_P (T : List Bit) (u : Stf) : (T.foldl Stf.copyBit u).P = u.P := by
  induction T generalizing u with
  | nil => rfl
  | cons b T ih => rw [List.foldl_cons, ih, Stf.copyBit_eq]

/-- Up to the last protected bit the readings do the same. -/
theorem stuffPass_readings_agree {L : Nat} (p : Bit) {R : List Bit} (h : R.length ≤ L) :
    stuffPass true L p R = stuffPass false L p R := by
  induction R using List.reverseRecOn with
  | nil => rfl
  | append_singleton R b ih =>
    rw [List.length_append, List.length_singleton] at h
    have hdue : (stuffPass false L p R).stuffDue true = (stuffPass false L p R).stuffDue false := by
      rw [Stf.stuffDue_of_within (by simp [within]; omega), Stf.stuffDue_of_within (by simp [within]; omega)]
    rw [stuffPass_snoc, stuffPass_snoc, ih (by omega), Stf.takeBit, hdue, Stf.takeBit]

/-- The exclusive reading copies everything behind the first `L` bits. -/
theorem stuffPass_exclusive {L : Nat} (p : Bit) {R : List Bit} (h : L ≤ R.length) :
    stuffPass false L p R = (R.drop L).foldl Stf.copyBit (stuffPass false L p (R.take L)) := by
  conv_lhs => rw [← List.take_append_drop L R, stuffPass_append]
  exact foldl_takeBit_of_not_within (by simp [within, h]) _

/-- The inclusive reading still may stuff before `R[L]`, and copies everything behind it. -/
theorem stuffPass_inclusive {L : Nat} (p : Bit) {R : List Bit} (h : L < R.length) :
    stuffPass true L p R =
      (R.drop (L + 1)).foldl Stf.copyBit ((stuffPass false L p (R.take L)).takeBit true R[L]) := by
  conv_lhs => rw [← List.take_append_drop (L + 1) R, stuffPass_append, List.take_succ_eq_append_getElem h, stuffPass_snoc,
    stuffPass_readings_agree p (by simp)]
  exact foldl_takeBit_of_not_within (by simp [within]; omega) _

/-- At the boundary the inclusive reading stuffs exactly after a run of five. -/
theorem stuffDue_boundary (L : Nat) (p : Bit) (R : List Bit) :
    (stuffPass false L p (R.take L)).stuffDue true = decide ((stuffPass false L p (R.take L)).run = 5) :=
  Stf.stuffDue_of_within (by simp [within])

/-- The passes of the two readings leave different streams exactly when a bit follows a run of five that ends on the last
protected bit: then only the inclusive one records a further position. -/
theorem stuff_readings_eq_iff (R : List Bit) (L : Nat) (p : Bit) :
    stuff true R L = stuff false R L ↔ ¬(L < R.length ∧ (stuffPass false L p (R.take L)).run = 5) := by
  rw [stuffPass_streams true L p, stuffPass_streams false L p]
  by_cases hlt : L < R.length
  · have hex := stuffPass_exclusive p hlt.le
    have hin := stuffPass_inclusive p hlt
    have hdue := stuffDue_boundary L p R
    by_cases h5 : (stuffPass false L p (R.take L)).run = 5
    · have hP : (stuffPass true L p R).P ≠ (stuffPass false L p R).P := by
        rw [hex, hin, foldl_copyBit_P, foldl_copyBit_P, Stf.takeBit_of_due (by rw [hdue, decide_eq_true h5])]
        simp
      simp [hlt, h5, hP]
    · have hpass : stuffPass true L p R = stuffPass false L p R := by
        rw [hex, hin, Stf.takeBit, hdue, decide_eq_false h5, List.drop_eq_getElem_cons hlt]
        rfl
      simp [h5, hpass]
  · simp [hlt, stuffPass_readings_agree p (Nat.le_of_not_lt hlt)]

/-- The last bit of a pass is the last bit of its input. -/
theorem stuffPass_last {inclusive : Bool} {L : Nat} {p : Bit} {R : List Bit} {c : Bit} (h : R.getLast? = some c) :
    (stuffPass inclusive L p R).last = c := by
  obtain ⟨R, rfl⟩ := List.getLast?_eq_some_iff.1 h
  rw [stuffPass_snoc, Stf.takeBit_last]

/-- Settles O44: the passes of the two readings are one up to `R[L-1]` and only copy behind `R[L]`, so that they differ in
what they do at `R[L]` alone. -/
theorem readingsDifferOnlyAtTheBoundary : Obligations.ReadingsDifferOnlyAtTheBoundary := by
  unfold Obligations.ReadingsDifferOnlyAtTheBoundary
  refine ⟨fun i L => ⟨within_iff false i L, within_iff true i L⟩, fun inclusive i j L => within_eq_false_of_le,
    fun R L last => ?_, fun R L last c b h5 hc hb => ?_⟩
  · rw [Ne, stuff_readings_eq_iff R L last, not_not]
  · obtain ⟨hlt, rfl⟩ := List.getElem?_eq_some_iff.1 hb
    have hpos : 0 < L := by
      by_contra h0
      obtain rfl : L = 0 := by omega
      simp [Stf.start] at h5
    have hlast : (stuffPass false L last (R.take L)).last = c := by
      refine stuffPass_last ?_
      rw [List.getLast?_take, if_neg (by omega), hc]; rfl
    have hagree := stuffPass_readings_agree last (R := R.take L) (L := L) (by simp)
    simp only [stuffPass_streams true L last, stuffPass_streams false L last, List.take_succ_eq_append_getElem hlt,
      stuffPass_snoc, hagree, and_true]
    refine ⟨?_, ?_⟩
    · rw [Stf.takeBit_of_not_within (by simp [within]; omega), Stf.copyBit_eq]
    · rw [Stf.takeBit_of_due (by rw [stuffDue_boundary L last R, decide_eq_true h5]), hlast]

end Sys2Proof.Machine

end

/-! # The stuffed sequence: its map (R85), its lengths and what deleting the stuff bits leaves (R88), and the round trip
through the destuffer (R90, R104) -/

section

namespace Sys2Proof.Machine

/-! ## The map and the positions (R85) -/

/-- Settles O40: `M` lists in rising order the stuffed indices that are no stuff position, which is what skipping over
the positions enumerates; below its entry for `r` lie `r` mapped bits and the stuff positions. -/
theorem stuffMapSkipsPositions : Obligations.StuffMapSkipsPositions := by
  unfold Obligations.StuffMapSkipsPositions
  intro inclusive R L
  have h := stuffPass_inv inclusive L (Config.freeBit 0) R
  refine ⟨?_, fun r j hr => ?_⟩
  · have hskip := mapSkipping_eq (stuff inclusive R L).P (stuff inclusive R L).M 0 h.M_increasing
      (fun m hm => ⟨Nat.zero_le m, ((h.mem_M_iff m).1 hm).2⟩)
      (fun x _ ⟨m, hm, hle⟩ => (h.mem_P_or_M_iff x).2 (hle.trans_lt ((h.mem_M_iff m).1 hm).1))
    have hlen : (stuff inclusive R L).M.length = R.length := h.length_M.trans (stuffPass_rcnt _ _ _ _)
    rw [← hlen, hskip]
  · have hlt := ((h.mem_M_iff j).1 (List.mem_of_getElem? hr)).1
    have hbelow := length_filter_lt_of_getElem _ h.M_increasing r j hr
    have hsplit := h.below_split j hlt.le
    rw [hbelow] at hsplit
    exact (Nat.add_comm _ _).trans hsplit |>.symm

/-! ## Lengths, spacing and deletion (R88) -/

/-- A list that rises by five at each step from `a` on ends at least five times its length above `a`. -/
theorem add_five_mul_length_le_getLast {l : List Nat} {a : Nat} (h : (a :: l).IsChain (fun p q => p + 5 ≤ q)) :
    a + 5 * l.length ≤ (a :: l).getLast (List.cons_ne_nil a l) := by
  induction l generalizing a with
  | nil => exact le_refl a
  | cons b l ih =>
    obtain ⟨hab, hl⟩ := List.isChain_cons_cons.1 h
    have := ih hl
    rw [List.getLast_cons (List.cons_ne_nil b l), List.length_cons]
    omega

theorem isChain_stuff_positions (inclusive : Bool) (L : Nat) (p : Bit) (R : List Bit) :
    (0 :: (stuffPass inclusive L p R).P).IsChain (fun p q => p + 5 ≤ q) := by
  have hrising := (stuffPass_inv inclusive L p R).P_increasing
  refine List.Pairwise.isChain (List.pairwise_cons.2 ⟨fun q hq => ?_, ?_⟩)
  · have := (stuffedAt_of_mem_P hq).five_le
    omega
  · exact hrising.imp_of_mem fun hp hq => (stuffedAt_of_mem_P hp).add_five_le (stuffedAt_of_mem_P hq)

/-- Behind the last of `n` stuff bits, at index `5 * n` or above, a further bit follows; `n` of the symbols up to there
are stuff bits (R15). -/
theorem length_stuff_positions_le (inclusive : Bool) (L : Nat) (p : Bit) (R : List Bit) :
    (stuffPass inclusive L p R).P.length ≤ (R.length - 2) / 4 := by
  have h := stuffPass_inv inclusive L p R
  have hcount := h.scnt_eq
  rw [stuffPass_rcnt] at hcount
  rcases List.eq_nil_or_concat (stuffPass inclusive L p R).P with hP | ⟨P, q, hP⟩
  · simp [hP]
  · have hq : q ∈ (stuffPass inclusive L p R).P := by simp [hP]
    have hroom := (stuffedAt_of_mem_P hq).add_two_le
    have hlast := add_five_mul_length_le_getLast (isChain_stuff_positions inclusive L p R)
    rw [h.length_S] at hroom
    simp only [hP, List.length_append, List.length_singleton, List.concat_eq_append, ← List.cons_append,
      List.getLast_append_singleton] at hlast hcount ⊢
    omega

/-- Nothing is due while fewer than five bits are in, and the fifth is past a protected length of five, or four in the
inclusive reading. -/
theorem stuffPass_P_eq_nil {inclusive : Bool} {L : Nat} (p : Bit) (R : List Bit)
    (hL : L ≤ if inclusive then 4 else 5) : (stuffPass inclusive L p R).P = [] := by
  induction R using List.reverseRecOn with
  | nil => rfl
  | append_singleton R b ih =>
    have h := stuffPass_inv inclusive L p R
    have hcount := h.scnt_eq
    rw [ih, stuffPass_rcnt] at hcount
    have hnot : (stuffPass inclusive L p R).stuffDue inclusive = false := by
      rw [Bool.eq_false_iff, Ne, Stf.stuffDue_iff, stuffPass_rcnt, stuffPass_plen]
      rintro ⟨h5, hw⟩
      have hfive : 5 ≤ R.length := by simpa [h.length_S, hcount] using (h.replicate_suffix h5).length_le
      cases inclusive with
      | false =>
        have hlt : R.length < L := by simpa using hw
        exact absurd (hlt.trans_le hL) (Nat.not_lt.2 hfive)
      | true =>
        have hle : R.length ≤ L := by simpa using hw
        exact absurd (hfive.trans (hle.trans hL)) (by decide)
    rw [stuffPass_snoc, Stf.takeBit_of_not_due hnot]
    exact ih

theorem deleteAt_snoc (S : List Bit) (P : List Nat) (b : Bit) :
    deleteAt (S ++ [b]) P = deleteAt S P ++ if S.length ∈ P then [] else [b] := by
  unfold deleteAt
  rw [List.zipIdx_append, List.filter_append, List.map_append]
  by_cases h : S.length ∈ P <;> simp [h]

/-- Only the positions that the sequence has matter. -/
theorem deleteAt_concat_of_length_le {S : List Bit} {k : Nat} (P : List Nat) (h : S.length ≤ k) :
    deleteAt S (P ++ [k]) = deleteAt S P := by
  unfold deleteAt
  congr 1
  refine List.filter_congr fun x hx => ?_
  have hlt := (List.mem_zipIdx hx).2.1
  have hne : x.2 ≠ k := by omega
  simp [hne]

theorem deleteAt_nil (S : List Bit) : deleteAt S [] = S := by
  simp [deleteAt]

/-- Deleting the recorded positions of a pass leaves its input. -/
theorem deleteAt_stuffPass (inclusive : Bool) (L : Nat) (p : Bit) (R : List Bit) :
    deleteAt (stuffPass inclusive L p R).S (stuffPass inclusive L p R).P = R := by
  induction R using List.reverseRecOn with
  | nil => rfl
  | append_singleton R b ih =>
    have h := stuffPass_inv inclusive L p R
    have hS := h.length_S
    have hP : ∀ q, q ∈ (stuffPass inclusive L p R).P → q < (stuffPass inclusive L p R).scnt := fun q hq =>
      (h.mem_P_or_M_iff q).1 (.inl hq)
    have hfresh : (stuffPass inclusive L p R).scnt ∉ (stuffPass inclusive L p R).P := fun hq => (hP _ hq).ne rfl
    have hfresh' : (stuffPass inclusive L p R).scnt + 1 ∉ (stuffPass inclusive L p R).P := fun hq =>
      absurd (hP _ hq) (by omega)
    rw [stuffPass_snoc]
    cases hdue : (stuffPass inclusive L p R).stuffDue inclusive with
    | false => rw [Stf.takeBit_of_not_due hdue, deleteAt_snoc, hS, if_neg hfresh, ih]
    | true =>
      rw [Stf.takeBit_of_due hdue]
      dsimp only
      rw [List.append_cons, deleteAt_snoc, deleteAt_snoc, deleteAt_concat_of_length_le _ hS.le, ih]
      simp [hS, hfresh']

/-- Settles O42: the counts follow from the invariant, the spacing and the bound from what stands about each stuff bit, and
deletion by induction over the pass. -/
theorem stuffedLengthsAndDeletion : Obligations.StuffedLengthsAndDeletion := by
  unfold Obligations.StuffedLengthsAndDeletion
  intro inclusive R L
  have h := stuffPass_inv inclusive L (Config.freeBit 0) R
  have hdelete : deleteAt (stuff inclusive R L).S (stuff inclusive R L).P = R := deleteAt_stuffPass _ _ _ _
  refine ⟨?_, length_stuff_positions_le _ _ _ _, fun p hp => (stuffedAt_of_mem_P hp).five_le,
    (isChain_stuff_positions _ _ _ _).tail, fun hL => ?_, hdelete⟩
  · have hcount := h.length_S.trans h.scnt_eq
    rwa [stuffPass_rcnt] at hcount
  · have hP : (stuff inclusive R L).P = [] := stuffPass_P_eq_nil _ R hL
    rw [hP, deleteAt_nil] at hdelete
    exact ⟨hP, hdelete⟩

/-! ## The round trip (R90, R104) -/

/-- The destuffer has read exactly what the stuffer has emitted, and dropped exactly the stuff bits: they agree on the run,
on what it is made of, and on the flags (`41_destuffer.md` section 3). -/
structure Dst.InStep (v : Dst) (u : Stf) : Prop where
  run : v.run = u.run
  last : u.run ≠ 0 → v.last = u.last
  flags : v.D = u.F

/-- Within the protected length the symbols of one `STF.BIT` keep the two units in step, and the destuffer emits the one
bit that the stuffer took. -/
theorem Dst.InStep.takeBit {inclusive : Bool} {cfg : Config} {u : Stf} {v : Dst} (h : v.InStep u) (hu : u.Inv cfg)
    (hw : within inclusive u.rcnt u.plen = true) (b : Bit) :
    ∃ symbols, (u.takeBit inclusive b).S = u.S ++ symbols ∧
      (symbols.foldl Dst.takeBit v).InStep (u.takeBit inclusive b) ∧ (symbols.foldl Dst.takeBit v).C = v.C ++ [b] := by
  obtain ⟨hrun, hlast, hflags⟩ := h
  have hle := hu.run_le
  simp only [runMax] at hle
  by_cases h5 : u.run = 5
  · have hl := hlast (by omega)
    rw [Stf.takeBit_of_due (by rw [Stf.stuffDue_of_within hw, decide_eq_true h5])]
    refine ⟨[!u.last, b], rfl, ?_⟩
    rw [List.foldl_cons, List.foldl_cons, List.foldl_nil, Dst.takeBit_of_due (hrun.trans h5),
      Dst.takeBit_of_not_due (show (1 : Nat) ≠ 5 by decide)]
    refine ⟨⟨?_, fun _ => rfl, by simp [hflags]⟩, rfl⟩
    by_cases hb : b = u.last
    · simp [hb, hl]
    · simp [hl, Bool.eq_not_of_ne hb]
  · rw [Stf.takeBit_of_not_due (by rw [Stf.stuffDue_of_within hw, decide_eq_false h5])]
    refine ⟨[b], rfl, ?_⟩
    rw [List.foldl_cons, List.foldl_nil, Dst.takeBit_of_not_due (by rwa [hrun])]
    refine ⟨⟨?_, fun _ => rfl, by simp [hflags]⟩, rfl⟩
    by_cases hpos : 1 ≤ u.run
    · simp only [Stf.nextRun, hrun, hlast (by omega)]
      split <;> omega
    · simp [Stf.nextRun, hrun, hpos]

/-- The destuffer stays in step with a pass that never leaves the protected length, and gives back its input. -/
theorem destuffPass_inStep {inclusive : Bool} {L : Nat} (p q : Bit) {R : List Bit} (h : Protected inclusive R.length L) :
    (destuffPass q (stuffPass inclusive L p R).S).InStep (stuffPass inclusive L p R) ∧
      (destuffPass q (stuffPass inclusive L p R).S).C = R := by
  induction R using List.reverseRecOn with
  | nil => exact ⟨⟨rfl, fun h0 => absurd rfl h0, rfl⟩, rfl⟩
  | append_singleton R b ih =>
    rw [List.length_append, List.length_singleton, protected_succ_iff] at h
    obtain ⟨hstep, hC⟩ := ih h.1
    obtain ⟨symbols, hS, hnext, hbit⟩ := hstep.takeBit (stuffPass_inv inclusive L p R) (by simpa using h.2) b
    rw [stuffPass_snoc, hS, destuffPass_append]
    exact ⟨hnext, by rw [hbit, hC]⟩

/-- The indices that `F` flags are the stuff positions, in order (R16). -/
theorem Stf.Inv.filter_flags {cfg : Config} {u : Stf} (h : u.Inv cfg) :
    (List.range u.F.length).filter (fun j => u.F.getD j false) = u.P := by
  have hF : ∀ j, j < u.scnt → u.F.getD j false = decide (j ∈ u.P) := fun j hj => by
    rw [h.flags_mark, List.getD_eq_getElem?_getD, List.getElem?_map, List.getElem?_range hj]; rfl
  have hmem : ∀ j, j ∈ (List.range u.F.length).filter (fun j => u.F.getD j false) ↔ j ∈ u.P := fun j => by
    rw [List.mem_filter, List.mem_range, h.length_F]
    constructor
    · exact fun ⟨hlt, hj⟩ => of_decide_eq_true ((hF j hlt).symm.trans hj)
    · intro hj
      have hlt := (h.mem_P_or_M_iff j).1 (.inl hj)
      exact ⟨hlt, (hF j hlt).trans (decide_eq_true hj)⟩
  have hperm := (List.perm_ext_iff_of_nodup (List.nodup_range.filter _) h.P_increasing.nodup).2 hmem
  exact hperm.eq_of_pairwise (fun a b _ _ hab hba => absurd hab hba.asymm) (List.pairwise_lt_range.filter _)
    h.P_increasing

/-- In step, the destuffer has dropped exactly the stuff positions. -/
theorem Dst.InStep.dropPositions {cfg : Config} {u : Stf} {v : Dst} (h : v.InStep u) (hu : u.Inv cfg) :
    v.dropPositions = u.P := by
  rw [Dst.dropPositions, h.flags, hu.filter_flags]

/-- A fully protected sequence comes back from the destuffer (R90). -/
theorem destuff_stuff {inclusive : Bool} {R : List Bit} {L : Nat} (h : R.length ≤ L) :
    destuff (stuff inclusive R L).S = R :=
  (destuffPass_inStep (Config.freeBit 0) (Config.freeBit 1) (protected_of_le h)).2

/-- The first `L` bits come back whatever follows them: the stuffer only adds behind their symbols, and the destuffer
behind their clean bits. -/
theorem take_prefix_destuff_stuff (inclusive : Bool) (R : List Bit) (L : Nat) :
    R.take L <+: destuff (stuff inclusive R L).S := by
  obtain ⟨T, hT⟩ := (stuff_prefix_append inclusive (R.take L) (R.drop L) L).1
  rw [List.take_append_drop] at hT
  have hextends := (foldl_destuff_extends T (destuffPass (Config.freeBit 1) (stuff inclusive (R.take L) L).S)).1
  rw [← destuffPass_append, hT] at hextends
  have hback : destuff (stuff inclusive (R.take L) L).S = R.take L := destuff_stuff (List.length_take_le L R)
  rwa [← hback]

/-- Settles O50, by the two machines in step over the protected bits, and what follows those changes nothing before. Six
equal bits without protection lose their sixth. -/
theorem destuffUndoesStuff : Obligations.DestuffUndoesStuff := by
  unfold Obligations.DestuffUndoesStuff
  refine ⟨fun inclusive R L last => ⟨fun hL => ⟨destuff_stuff hL, ?_⟩, fun hL => ?_⟩, fun inclusive => ?_⟩
  · have hstep := (destuffPass_inStep (Config.freeBit 0) last (protected_of_le (inclusive := inclusive) hL)).1
    exact hstep.dropPositions (stuffPass_inv inclusive L (Config.freeBit 0) R)
  · have hprefix := List.prefix_iff_eq_take.1 (take_prefix_destuff_stuff inclusive R L)
    rw [List.length_take, Nat.min_eq_left hL.le] at hprefix
    rw [Nat.min_eq_left hL.le, ← hprefix]
  · refine ⟨List.replicate 6 false, 0, by decide, ?_⟩
    revert inclusive
    decide

end Sys2Proof.Machine

end

/-! # The destuffer: its commands (R100, R102), later input (R103), and the clean-to-stuffed map (R108) -/

section

namespace Sys2Proof.Machine

/-! ## The commands of the destuffer (R100, R102) -/

/-- Settles O15: the state that `DST.INIT` leaves is the start of a pass, with only DST replaced. -/
theorem dstInitStartsPass : Obligations.DstInitStartsPass := by
  unfold Obligations.DstInitStartsPass
  intro s
  exact ⟨_, exec_dstInit s, rfl, rfl, rfl, rfl, rfl, rfl, rfl, rfl, rfl⟩

/-- Settles O46: `DST.INIT` starts the pass and `DST.BITS` folds over it; the value that `last` holds at the start does not
matter. -/
theorem destuffCommandsComputeDestuff : Obligations.DestuffCommandsComputeDestuff := by
  unfold Obligations.DestuffCommandsComputeDestuff
  refine ⟨fun s B hB => ?_, rfl⟩
  have hbits := runCommands_dstBits B (s.setDst (Dst.start s.freeBit)).drawn (by simpa [Dst.start] using hB)
  refine ⟨_, (runCommands_cons (exec_dstInit s) _).trans hbits, ?_⟩
  rw [destuff_eq s.freeBit B]
  exact ⟨rfl, rfl, rfl⟩

/-- Settles O47: the pass over `B ++ T` goes on from the pass over `B`, and the clean sequence only grows at its end. -/
theorem destuffIsStableUnderExtension : Obligations.DestuffIsStableUnderExtension := by
  unfold Obligations.DestuffIsStableUnderExtension
  intro B T
  have hextends := (foldl_destuff_extends T (destuffPass (Config.freeBit 1) B)).1
  rwa [← destuffPass_append] at hextends

/-! ## The positions and the map (R108, R51) -/

namespace Dst

/-- The dropped positions are the indices that `D` marks. -/
theorem mem_dropPositions_iff (u : Dst) (j : Nat) : j ∈ u.dropPositions ↔ u.D[j]? = some true := by
  rw [dropPositions, List.mem_filter, List.mem_range, List.getD_eq_getElem?_getD]
  constructor
  · rintro ⟨hlt, hj⟩
    rwa [List.getElem?_eq_getElem hlt, Option.getD_some, ← Option.some_inj, ← List.getElem?_eq_getElem hlt] at hj
  · intro hj
    exact ⟨(List.getElem?_eq_some_iff.1 hj).1, by rw [hj, Option.getD_some]⟩

/-- Every input index is a dropped position or an entry of the map, once. -/
theorem dropPositions_append_cleanToStuffed_perm (u : Dst) :
    (u.dropPositions ++ u.cleanToStuffed).Perm (List.range u.D.length) := List.filter_append_perm _ _

/-- The map holds exactly the input indices that were not dropped. -/
theorem mem_cleanToStuffed_iff (u : Dst) (j : Nat) :
    j ∈ u.cleanToStuffed ↔ j < u.D.length ∧ j ∉ u.dropPositions := by
  simp only [cleanToStuffed, dropPositions, List.mem_filter, List.mem_range, Bool.not_eq_true']
  constructor
  · exact fun ⟨hlt, hj⟩ => ⟨hlt, fun ⟨_, hj'⟩ => Bool.false_ne_true (hj.symm.trans hj')⟩
  · exact fun ⟨hlt, hj⟩ => ⟨hlt, Bool.eq_false_iff.2 fun hj' => hj ⟨hlt, hj'⟩⟩

/-- The place of an entry in the map is what the dropped positions below it leave of it: the map rises, so that many
kept bits lie below the entry. -/
theorem sub_dropped_below_eq {u : Dst} {i j : Nat} (hi : u.cleanToStuffed[i]? = some j) :
    j - (u.dropPositions.filter (· < j)).length = i := by
  have hlt := ((u.mem_cleanToStuffed_iff j).1 (List.mem_of_getElem? hi)).1
  have hbelow := length_filter_lt_of_getElem u.cleanToStuffed (List.pairwise_lt_range.filter _) i j hi
  have hsplit := (u.dropPositions_append_cleanToStuffed_perm.filter (· < j)).length_eq
  rw [List.filter_append, List.length_append, length_range_filter_lt _ _ hlt.le] at hsplit
  omega

/-- One more flag at the end of `D` adds its own index to the map when it is 0, and nothing when it is 1. -/
theorem cleanToStuffed_of_D_snoc {u v : Dst} {f : Bit} (h : v.D = u.D ++ [f]) :
    v.cleanToStuffed = u.cleanToStuffed ++ if f then [] else [u.D.length] := by
  have hbefore : ∀ j ∈ List.range u.D.length, (!(u.D ++ [f]).getD j false) = !u.D.getD j false := fun j hj => by
    rw [List.getD_append _ _ _ _ (List.mem_range.1 hj)]
  rw [cleanToStuffed, cleanToStuffed, h, List.length_append, List.length_singleton, List.range_succ,
    List.filter_append, List.filter_congr hbefore]
  cases f <;> simp

end Dst

@[simp] theorem destuffPass_length_D (q : Bit) (B : List Bit) : (destuffPass q B).D.length = B.length := by
  rw [← (destuffPass_inv q B).length_D, destuffPass_icnt]

/-- The clean sequence is the input read at the entries of the map. -/
theorem map_getElem?_cleanToStuffed (q : Bit) (B : List Bit) :
    (destuffPass q B).cleanToStuffed.map (fun j => B[j]?) = (destuffPass q B).C.map some := by
  induction B using List.reverseRecOn with
  | nil => rfl
  | append_singleton B b ih =>
    have hbefore : (destuffPass q B).cleanToStuffed.map (fun j => (B ++ [b])[j]?) =
        (destuffPass q B).cleanToStuffed.map (fun j => B[j]?) := List.map_congr_left fun j hj => by
      have hlt := ((Dst.mem_cleanToStuffed_iff _ j).1 hj).1
      rw [destuffPass_length_D] at hlt
      exact List.getElem?_append_left hlt
    rw [destuffPass_snoc]
    by_cases h5 : (destuffPass q B).run = 5
    · rw [Dst.takeBit_of_due h5, Dst.cleanToStuffed_of_D_snoc rfl]
      simp [hbefore, ih]
    · rw [Dst.takeBit_of_not_due h5, Dst.cleanToStuffed_of_D_snoc rfl]
      simp [hbefore, ih]

/-- Settles O49: the map and the dropped positions share out the input indices, which fixes the place of each entry, and
the clean sequence is the input read along the map. -/
theorem cleanMapPointsAtKeptBits : Obligations.CleanMapPointsAtKeptBits := by
  unfold Obligations.CleanMapPointsAtKeptBits
  intro B last
  have hread := map_getElem?_cleanToStuffed last B
  refine ⟨Dst.mem_dropPositions_iff _, by simpa using congrArg List.length hread, fun i j hi => ?_, fun j hlt hj => ?_⟩
  · refine ⟨?_, ((Dst.mem_cleanToStuffed_iff _ j).1 (List.mem_of_getElem? hi)).2, (Dst.sub_dropped_below_eq hi).symm⟩
    have hentry := congrArg (·[i]?) hread
    simp only [List.getElem?_map, hi, Option.map_some] at hentry
    obtain ⟨b, hb, hbit⟩ := Option.map_eq_some_iff.1 hentry.symm
    exact hb.trans hbit
  · obtain ⟨i, hi⟩ := List.mem_iff_getElem?.1 ((Dst.mem_cleanToStuffed_iff _ j).2 ⟨hlt, hj⟩)
    rwa [Dst.sub_dropped_below_eq hi]

end Sys2Proof.Machine

end

/-! # The extractor: its commands (R115, R116), its outputs (R117 to R121, R125, R126), and the pass over a sequence (R122) -/

section

namespace Sys2Proof.Machine

/-! ## The commands of the extractor (R115, R116) -/

/-- Settles O17: the state that `FFX.INIT` leaves is the start of a pass, with only FFX replaced. -/
theorem ffxInitStartsPass : Obligations.FfxInitStartsPass := by
  unfold Obligations.FfxInitStartsPass
  intro s
  exact ⟨_, exec_ffxInit s, rfl, rfl, rfl, rfl, rfl, fun k => decide_eq_false k.not_lt_zero, rfl, rfl, rfl, rfl⟩

/-- Settles O18: the buffer is written at `clen` below 108 and nowhere from there on, which leaves every other cell. -/
theorem ffxBitStoresAtClen : Obligations.FfxBitStoresAtClen := by
  unfold Obligations.FfxBitStoresAtClen
  intro s b hfits
  refine ⟨_, exec_ffxBit b hfits, s.ffx.takeBit_clen b, fun hlt => ?_, fun a ha => ?_, rfl, rfl, rfl, rfl⟩
  · rw [State.setFfx_ffx, Ffx.takeBit_cbuf, if_pos hlt]
    exact Cells.read_write_same _ _ b
  · rw [State.setFfx_ffx, Ffx.takeBit_cbuf]
    split
    · next hlt => exact Cells.read_write_of_ne _ b (ha hlt)
    · rfl

/-! ## The outputs of a filled buffer (R117 to R121, R125) -/

/-- Every row of the field table lies inside the frame (R45). -/
theorem FrameField.start_add_width_le (f : FrameField) : f.start + f.width ≤ 108 := by
  cases f with
  | data k => simp only [start, width]; omega
  | _ => decide

namespace Ffx

/-- An output that is a word from the `n` cells from `a` on: absent until the last of them has arrived, and then the word
whose most significant bit is cell `a` (R43). -/
theorem Filled.output_cells {u : Ffx} (h : u.Filled) {a n : Nat} {out : Option (BitVec n)} (hframe : a + n ≤ 108)
    (hout : out = if a + n ≤ u.clen then some (BitVec.ofNat n (uint (slice u.bits a (a + n)))) else none) :
    (u.clen < a + n → out = none) ∧
    (a + n ≤ u.clen → ∃ v : BitVec n, out = some v ∧
      ∀ i, i < n → u.cbuf.read (a + i) = some (v.getLsbD (n - 1 - i))) := by
  subst hout
  refine ⟨fun hlt => if_neg (by omega), fun hle => ⟨_, if_pos hle, fun i hi => ?_⟩⟩
  rw [h.read_eq_testBit a n i (le_min hle hframe) hi, BitVec.getLsbD_ofNat, decide_eq_true (by omega), Bool.true_and]

theorem idValid_iff (u : Ffx) : u.idValid = true ↔ 12 ≤ u.clen := decide_eq_true_iff

theorem dlcValid_iff (u : Ffx) : u.dlcValid = true ↔ 19 ≤ u.clen := decide_eq_true_iff

theorem crcValid_iff (u : Ffx) : u.crcValid = true ↔ 98 ≤ u.clen := decide_eq_true_iff

theorem dataValid_iff_lt_ndata (u : Ffx) (k : Nat) : u.dataValid k = true ↔ k < u.ndata := decide_eq_true_iff

/-- A byte is claimed when `dlc` is there and says so (R120). -/
theorem lt_claimedBytes_iff (u : Ffx) (k : Nat) :
    k < u.claimedBytes ↔ ∃ d, u.dlc = some d ∧ k < min d.toNat 8 := by
  unfold claimedBytes
  cases u.dlc <;> simp

/-- No count past 108 matters for `ndata`, since no frame claims more than eight bytes (R120). -/
theorem ndata_eq (u : Ffx) : u.ndata = min u.claimedBytes ((u.clen - 19) / 8) := by
  have hclaimed := u.claimedBytes_le
  simp only [ndata, frameBits]
  split <;> omega

/-- When a row has its output: a DATA row waits for its bits and for the claim of `dlc`, any other for its bits (R125). -/
theorem fieldAvailable_iff (u : Ffx) (f : FrameField) :
    u.fieldAvailable f = true ↔ f.start + f.width ≤ u.clen ∧
      ∀ k, f = .data k → ∃ d, u.dlc = some d ∧ k.val < min d.toNat 8 := by
  simp only [← lt_claimedBytes_iff]
  cases f <;> simp [fieldAvailable]

end Ffx

/-- Settles O29: `id` is the word from the eleven cells from 1 on. -/
theorem idIsCleanBitsOneToEleven : Obligations.IdIsCleanBitsOneToEleven := by
  unfold Obligations.IdIsCleanBitsOneToEleven
  intro cfg u h
  exact ⟨u.idValid_iff, h.filled.output_cells (a := 1) (by decide) h.filled.id_eq⟩

/-- Settles O30: `dlc` is the word from the four cells from 15 on. -/
theorem dlcIsCleanBitsFifteenToEighteen : Obligations.DlcIsCleanBitsFifteenToEighteen := by
  unfold Obligations.DlcIsCleanBitsFifteenToEighteen
  intro cfg u h
  exact ⟨u.dlcValid_iff, h.filled.output_cells (a := 15) (by decide) h.filled.dlc_eq⟩

/-- Settles O32: `crc` is the word from the fifteen cells from 83 on. -/
theorem crcIsCleanBitsFromEightyThree : Obligations.CrcIsCleanBitsFromEightyThree := by
  unfold Obligations.CrcIsCleanBitsFromEightyThree
  intro cfg u h
  exact ⟨u.crcValid_iff, h.filled.output_cells (a := 83) (by decide) h.filled.crc_eq⟩

/-- Settles O31: the count is the smaller of the bytes claimed and the bytes arrived, and a byte below it is the word from
the eight cells of its row. -/
theorem dataBytesFollowDlcAndArrival : Obligations.DataBytesFollowDlcAndArrival := by
  unfold Obligations.DataBytesFollowDlcAndArrival
  intro cfg u h
  refine ⟨fun hlt => if_pos hlt, fun d hd => ?_, u.dataValid_iff_lt_ndata, fun k => ?_, fun k hk => ?_, fun k hk => ?_⟩
  · rw [Ffx.ndata_eq, Ffx.claimedBytes_of_dlc hd]
    omega
  · rw [Ffx.dataValid_iff, Ffx.lt_claimedBytes_iff]
  · rw [h.filled.data_eq, if_neg hk.not_gt]
  · obtain ⟨harrived, hclaimed⟩ := (u.dataValid_iff k).1 ((u.dataValid_iff_lt_ndata k).2 hk)
    have hle8 := u.claimedBytes_le
    refine (h.filled.output_cells (a := 19 + 8 * k) (n := 8) (by omega) ?_).2 (by omega)
    rw [h.filled.data_eq, if_pos hk, if_pos (by omega)]

/-- Settles O33: a row with its output reads the cells it covers, all of them inside the frame. -/
theorem fieldTableOutputs : Obligations.FieldTableOutputs := by
  unfold Obligations.FieldTableOutputs
  intro cfg u f h
  dsimp only
  rw [← Ffx.fieldAvailable_iff]
  refine ⟨fun hnot => if_neg hnot, fun havailable => ?_⟩
  have hin : f.start + f.width ≤ min u.clen frameBits :=
    le_min ((u.fieldAvailable_iff f).1 havailable).1 f.start_add_width_le
  refine ⟨uint (slice u.bits f.start (f.start + f.width)), ?_, ?_, fun i hi => h.filled.read_eq_testBit _ _ i hin hi⟩
  · rw [Ffx.fieldBox, if_pos havailable, h.filled.memRead, if_pos hin]
    rfl
  · have hlt := uint_lt (slice u.bits f.start (f.start + f.width))
    rwa [length_slice _ _ _ (h.filled.length_bits ▸ hin)] at hlt

/-! ## Outputs within a pass (R126) -/

/-- `v` may be `u` later in the same pass: it has received at least as many bits, and reads whatever `u` reads. -/
structure Ffx.GrowsTo (u v : Ffx) : Prop where
  clen_le : u.clen ≤ v.clen
  memRead : ∀ {a n w : Nat}, u.memRead a n = some w → v.memRead a n = some w

theorem Ffx.GrowsTo.refl (u : Ffx) : u.GrowsTo u := ⟨le_rfl, fun h => h⟩

/-- The bits in the buffer only grow at their end (R50). -/
theorem Ffx.Filled.bits_prefix_takeBit {u : Ffx} (h : u.Filled) (b : Bit) : u.bits <+: (u.takeBit b).bits := by
  have hlen : u.bits.length ≤ 108 := by rw [h.length_bits]; exact min_le_right _ _
  rw [h.takeBit_bits]
  exact List.prefix_take_iff.2 ⟨List.prefix_append _ _, hlen⟩

/-- `FFX.BIT` writes behind everything that can be read. -/
theorem Ffx.Filled.growsTo_takeBit {u : Ffx} (h : u.Filled) (b : Bit) : u.GrowsTo (u.takeBit b) where
  clen_le := by rw [takeBit_clen]; exact Nat.le_succ _
  memRead {a n w} hw := by
    rw [h.memRead, Option.ite_none_right_eq_some] at hw
    obtain ⟨hin, hw⟩ := hw
    obtain ⟨T, hT⟩ := h.bits_prefix_takeBit b
    rw [(h.takeBit b).memRead, if_pos (by rw [takeBit_clen]; omega), ← hT,
      slice_append _ _ _ _ (h.length_bits ▸ hin), hw]

/-- A command other than the two that start an extraction pass leaves the extractor as it is, or gives it a bit. -/
theorem exec_growsTo {i : Instr} {s t : State} (hs : s.Inv) (h : exec i s = .next t) (hffx : i ≠ .ffxInit)
    (hrx : i ≠ .rxInit) : s.ffx.GrowsTo t.ffx := by
  rcases exec_cases h with ⟨L, rfl, -, rfl⟩ | ⟨b, rfl, -, rfl⟩ | ⟨rfl, rfl⟩ | ⟨b, rfl, -, rfl⟩ | ⟨rfl, rfl⟩ |
    ⟨b, rfl, -, rfl⟩ | ⟨rfl, rfl⟩ | ⟨b, rfl, -, -, rfl⟩
  · exact .refl _
  · exact .refl _
  · exact .refl _
  · exact .refl _
  · exact absurd rfl hffx
  · exact hs.ffx.filled.growsTo_takeBit b
  · exact absurd rfl hrx
  · rw [chainBit_ffx]
    split
    · exact .refl _
    · exact hs.ffx.filled.growsTo_takeBit b

namespace Ffx.GrowsTo

variable {u v : Ffx}

theorem idValid (h : u.GrowsTo v) (hu : u.idValid = true) : v.idValid = true :=
  v.idValid_iff.2 ((u.idValid_iff.1 hu).trans h.clen_le)

theorem dlcValid (h : u.GrowsTo v) (hu : u.dlcValid = true) : v.dlcValid = true :=
  v.dlcValid_iff.2 ((u.dlcValid_iff.1 hu).trans h.clen_le)

theorem crcValid (h : u.GrowsTo v) (hu : u.crcValid = true) : v.crcValid = true :=
  v.crcValid_iff.2 ((u.crcValid_iff.1 hu).trans h.clen_le)

/-- An output with a valid flag that stays 1 keeps its value. -/
theorem output (h : u.GrowsTo v) {α : Type} {f : Nat → α} {a n : Nat} {x : α} {valid valid' : Bool}
    (hvalid : valid = true → valid' = true) (hx : (if valid then (u.memRead a n).map f else none) = some x) :
    (if valid' then (v.memRead a n).map f else none) = some x := by
  rw [Option.ite_none_right_eq_some] at hx
  obtain ⟨hu, hx⟩ := hx
  obtain ⟨w, hw, rfl⟩ := Option.map_eq_some_iff.1 hx
  rw [if_pos (hvalid hu), h.memRead hw, Option.map_some]

theorem dlc (h : u.GrowsTo v) {d : BitVec 4} (hd : u.dlc = some d) : v.dlc = some d := h.output h.dlcValid hd

/-- A byte that is valid stays valid: its bits are in, and the `dlc` that claims it stays. -/
theorem dataValid (h : u.GrowsTo v) {k : Nat} (hk : u.dataValid k = true) : v.dataValid k = true := by
  rw [dataValid_iff, lt_claimedBytes_iff] at hk ⊢
  obtain ⟨harrived, d, hd, hclaimed⟩ := hk
  exact ⟨harrived.trans h.clen_le, d, h.dlc hd, hclaimed⟩

theorem ndata_le (h : u.GrowsTo v) : u.ndata ≤ v.ndata :=
  le_of_forall_lt fun k hk => (v.dataValid_iff_lt_ndata k).1 (h.dataValid ((u.dataValid_iff_lt_ndata k).2 hk))

end Ffx.GrowsTo

/-- Settles O35: within a pass the extractor only grows, and what it grows to has every output it had. -/
theorem outputsNeverChangeOnceValid : Obligations.OutputsNeverChangeOnceValid := by
  unfold Obligations.OutputsNeverChangeOnceValid
  intro i s t hs hexec hffx hrx
  have h := exec_growsTo hs hexec hffx hrx
  exact ⟨h.idValid, h.dlcValid, h.crcValid, fun k => h.dataValid, fun v => h.output h.idValid, fun v => h.dlc,
    fun k v => h.output h.dataValid, fun v => h.output h.crcValid, h.ndata_le⟩

/-! ## The pass over a sequence (R122) -/

namespace Ffx

/-- The bytes claimed, from the stored bits: four of them make a number that fits `dlc` as it is (R118, R120). -/
theorem Filled.claimedBytes_eq {u : Ffx} (h : u.Filled) (h19 : 19 ≤ u.clen) :
    u.claimedBytes = min (uint (slice u.bits 15 19)) nData := by
  have hdlc := h.dlc_eq
  rw [if_pos h19] at hdlc
  have hlt := uint_lt (slice u.bits 15 (15 + 4))
  rw [length_slice u.bits 15 4 (by rw [h.length_bits]; exact le_min h19 (by decide))] at hlt
  rw [claimedBytes_of_dlc hdlc, BitVec.toNat_ofNat, Nat.mod_eq_of_lt hlt]

/-- The data bytes in order are the slices of the rows below `ndata` (R119). -/
theorem Filled.filterMap_data {u : Ffx} (h : u.Filled) :
    (List.range u.ndata).filterMap u.data =
      (List.range u.ndata).map fun k => BitVec.ofNat 8 (uint (slice u.bits (19 + 8 * k) (27 + 8 * k))) := by
  rw [← List.filterMap_eq_map]
  refine List.filterMap_congr fun k hk => ?_
  rw [h.data_eq, if_pos (List.mem_range.1 hk), show 19 + 8 * k + 8 = 27 + 8 * k by omega]
  rfl

/-- The outputs are `extract` of what was received, of which the buffer holds the first 108 bits: every slice of `extract`
lies among them. -/
theorem Filled.frame_eq_extract {u : Ffx} (h : u.Filled) {Cs : List Bit} (hlen : u.clen = Cs.length)
    (hbits : u.bits = Cs.take 108) : u.frame = extract Cs := by
  have hslice : ∀ {a b : Nat}, b ≤ 108 → slice u.bits a b = slice Cs a b := fun hb => hbits ▸ slice_take Cs _ _ _ hb
  have hdata : 19 ≤ Cs.length →
      (List.range u.ndata).filterMap u.data = extractData Cs (min (uint (slice Cs 15 19)) nData) 0 := fun h19 => by
    have hclaimed := h.claimedBytes_eq (hlen ▸ h19)
    rw [hslice (by decide)] at hclaimed
    rw [h.filterMap_data, extractData_eq, ← hclaimed, Nat.sub_zero, ← hlen, ← ndata_eq]
    refine List.map_congr_left fun k hk => ?_
    have hk8 := (List.mem_range.1 hk).trans_le (u.ndata_le.trans u.claimedBytes_le)
    rw [hslice (by omega), Nat.zero_add]
  simp (disch := decide) only [frame, extract, h.id_eq, h.dlc_eq, h.crc_eq, dlcValid_iff, hlen, hslice]
  by_cases h19 : 19 ≤ Cs.length
  · rw [hdata h19]
  · simp only [if_neg h19]

end Ffx

theorem frame_extractPass (Cs : List Bit) : (extractPass Cs).frame = extract Cs :=
  (extractPass_filled Cs).1.frame_eq_extract (extractPass_clen Cs) (extractPass_filled Cs).2

/-- Bits behind the last byte asked for do not change the data. -/
theorem extractData_append (Cs T : List Bit) {m k : Nat} (h : 19 + 8 * (k + m) ≤ Cs.length) :
    extractData (Cs ++ T) m k = extractData Cs m k := by
  rw [extractData_eq, extractData_eq, List.length_append,
    show min m ((Cs.length + T.length - 19) / 8 - k) = min m ((Cs.length - 19) / 8 - k) by omega]
  refine List.map_congr_left fun j hj => ?_
  rw [List.mem_range] at hj
  rw [slice_append _ _ _ _ (by omega)]

/-- No field that `extract` reports reaches behind bit 97, the last of `crc` (R122). -/
theorem extract_append (Cs T : List Bit) (h : 98 ≤ Cs.length) : extract (Cs ++ T) = extract Cs := by
  have hslice : ∀ {a b : Nat}, b ≤ 98 → slice (Cs ++ T) a b = slice Cs a b := fun hb =>
    slice_append Cs T _ _ (hb.trans h)
  have hpresent : ∀ {n : Nat}, n ≤ 98 → (n ≤ (Cs ++ T).length ↔ n ≤ Cs.length) := fun hn => by
    rw [List.length_append]; omega
  have hdata : extractData (Cs ++ T) (min (uint (slice Cs 15 19)) nData) 0 =
      extractData Cs (min (uint (slice Cs 15 19)) nData) 0 := extractData_append Cs T (by simp only [nData]; omega)
  simp (disch := decide) only [extract, hslice, hpresent, hdata]

/-- Settles O52: `FFX.INIT` starts the pass and `FFX.BITS` folds over it, and the outputs of a pass are slices of its
input, none of which reaches behind bit 97. -/
theorem extractCommandsComputeExtract : Obligations.ExtractCommandsComputeExtract := by
  unfold Obligations.ExtractCommandsComputeExtract
  refine ⟨fun s Cs hCs => ?_, extract_append, fun Cs => ?_⟩
  · have hbits := runCommands_ffxBits Cs (s.setFfx Ffx.start) (by simpa using hCs)
    exact ⟨_, (runCommands_cons (exec_ffxInit s) _).trans hbits, frame_extractPass Cs, rfl, rfl⟩
  · simp only [extract]
    split <;> rfl

end Sys2Proof.Machine

end

/-! # The decode chain: its commands (R140, R141), and the pass over a sequence (R142) -/

section

namespace Sys2Proof.Machine

/-! ## The extractor in step with the destuffer (R141) -/

/-- A filled buffer is determined by how many bits came in and which of them are stored. -/
theorem Ffx.Filled.eq_extractPass {u : Ffx} (h : u.Filled) {Cs : List Bit} (hlen : u.clen = Cs.length)
    (hbits : u.bits = Cs.take 108) : u = extractPass Cs := by
  obtain ⟨hfilled, hpass⟩ := extractPass_filled Cs
  have hclen : u.clen = (extractPass Cs).clen := by rw [hlen, extractPass_clen]
  have hcbuf : u.cbuf = (extractPass Cs).cbuf := by
    calc u.cbuf = (List.range (min u.clen frameBits)).zip (Cs.take 108) := List.zip_of_prod h hbits
      _ = (extractPass Cs).cbuf := by rw [hclen]; exact (List.zip_of_prod hfilled hpass).symm
  exact congrArg₂ Ffx.mk hcbuf hclen

/-- `RX.BIT` passes on exactly what the destuffer emits, so the extractor stays where a pass over `C` takes it. -/
theorem chainBit_ffx_eq_extractPass {s : State} (h : s.ffx = extractPass s.dst.C) (b : Bit) :
    (s.chainBit b).ffx = extractPass (s.chainBit b).dst.C := by
  rw [chainBit_ffx, chainBit_dst]
  by_cases hrun : s.dst.run = 5
  · rw [if_pos hrun, Dst.takeBit_of_due hrun, h]
  · rw [if_neg hrun, Dst.takeBit_of_not_due hrun, extractPass_snoc, h]

/-- Under the invariant `Chained` leaves no choice: the extractor is where a pass over `C` takes it. -/
theorem State.Chained.ffx_eq_extractPass {s : State} (h : s.Chained) (hs : s.Inv) : s.ffx = extractPass s.dst.C :=
  hs.ffx.filled.eq_extractPass (h.clen_eq.trans hs.dst.length_C) h.cbuf_eq

theorem State.chained_of_ffx_eq_extractPass {s : State} (hccnt : s.dst.ccnt = s.dst.C.length)
    (h : s.ffx = extractPass s.dst.C) : s.Chained where
  clen_eq := by rw [h, extractPass_clen, hccnt]
  cbuf_eq := by rw [h]; exact (extractPass_filled s.dst.C).2

/-! ## The commands of the chain (R140, R141) -/

/-- Settles O19: the two INITs one after the other lead to the state that `RX.INIT` answers. -/
theorem rxInitIsDstInitThenFfxInit : Obligations.RxInitIsDstInitThenFfxInit := by
  unfold Obligations.RxInitIsDstInitThenFfxInit
  intro s
  exact ⟨_, _, exec_dstInit s, exec_ffxInit _, exec_rxInit s, rfl, rfl, rfl, rfl, rfl, rfl, rfl, rfl, rfl,
    fun k => decide_eq_false k.not_lt_zero, rfl, rfl, rfl⟩

/-- `RX.BIT` is refused as a whole when either of its two commands would be (R141, R159). -/
theorem exec_rxBit_refused_iff (b : Bit) (s : State) :
    exec (.rxBit b) s = .refused .counterOverflow ↔
      exec (.dstBit b) s = .refused .counterOverflow ∨ exec (.ffxBit b) s = .refused .counterOverflow := by
  simp only [exec, execRxBit, execDstBit, execFfxBit, unlessOverflow_refused_iff, Bool.and_eq_false_iff]

/-- Settles O20: the two cases of a due drop are the two equations of the chain, and the extractor stays where a pass over
`C` takes it, which is what `Chained` says of it. -/
theorem rxBitIsDstBitThenFfxBit : Obligations.RxBitIsDstBitThenFfxBit := by
  unfold Obligations.RxBitIsDstBitThenFfxBit
  refine ⟨fun s b hicnt hclen => ?_, fun s b => (exec_rxBit_refused_iff b s).2, fun s t hexec => ?_,
    fun s t b hs hchained hexec => ?_⟩
  · refine ⟨_, _, exec_dstBit b hicnt, exec_rxBit b hicnt hclen, fun hrun => ?_, fun hrun => ?_, chainBit_stf s b,
      chainBit_cfg s b, chainBit_port s b⟩
    · rw [chainBit_of_due hrun]
      exact ⟨rfl, rfl⟩
    · rw [chainBit_of_not_due hrun]
      exact exec_ffxBit b hclen
  · cases hexec
    exact State.chained_of_ffx_eq_extractPass rfl rfl
  · have ht : t.Inv := exec_keeps_inv hs hexec
    obtain ⟨-, rfl⟩ := unlessOverflow_next hexec
    exact State.chained_of_ffx_eq_extractPass ht.dst.length_C
      (chainBit_ffx_eq_extractPass (hchained.ffx_eq_extractPass hs) b)

/-! ## The pass over a sequence (R142) -/

theorem foldl_chainBit_dst (B : List Bit) (s : State) :
    (B.foldl State.chainBit s).dst = B.foldl Dst.takeBit s.dst :=
  (List.foldl_hom State.dst fun s b => (chainBit_dst s b).symm).symm

theorem foldl_chainBit_stf (B : List Bit) (s : State) : (B.foldl State.chainBit s).stf = s.stf := by
  induction B generalizing s with
  | nil => rfl
  | cons b rest ih => rw [List.foldl_cons, ih, chainBit_stf]

theorem foldl_chainBit_ffx_eq_extractPass (B : List Bit) {s : State} (h : s.ffx = extractPass s.dst.C) :
    (B.foldl State.chainBit s).ffx = extractPass (B.foldl State.chainBit s).dst.C := by
  induction B generalizing s with
  | nil => exact h
  | cons b rest ih => exact ih (chainBit_ffx_eq_extractPass h b)

/-- From a fresh destuffer the chain emits `destuff(B)`, whatever `last` held at the start. -/
theorem foldl_chainBit_C_eq_destuff (B : List Bit) {s : State} {q : Bit} (h : s.dst = Dst.start q) :
    (B.foldl State.chainBit s).dst.C = destuff B := by
  rw [foldl_chainBit_dst, h, destuff_eq q B, destuffPass]

/-- Settles O53: `RX.INIT` starts both units and `RX.BITS` folds over `B`; DST goes through its own pass, and FFX through
the pass over what DST emits, whose outputs are `extract` of it. -/
theorem decodePathIsExtractOfDestuff : Obligations.DecodePathIsExtractOfDestuff := by
  unfold Obligations.DecodePathIsExtractOfDestuff
  intro s B hB
  refine ⟨_, (runCommands_cons (exec_rxInit s) _).trans (runCommands_rxBits B _ ?_ ?_), ?_,
    foldl_chainBit_C_eq_destuff B rfl, foldl_chainBit_stf B _⟩
  · simpa [Dst.start] using hB
  · simpa using hB
  · rw [foldl_chainBit_ffx_eq_extractPass B rfl, foldl_chainBit_C_eq_destuff B rfl, frame_extractPass]

end Sys2Proof.Machine

end

/-! # When a command is refused for counter overflow (R159) -/

section

namespace Sys2Proof

/-- Of a bounded counter, what does not fit is what lies past `2^IDX_W - 1`. -/
theorem Config.fits_eq_false_iff {cfg : Config} {w : Nat} (hw : cfg.idxW = some w) (n : Nat) :
    cfg.fits n = false ↔ 2 ^ w - 1 < n := by
  have hpos := Nat.two_pow_pos w
  simp only [Config.fits, hw, decide_eq_false_iff_not]
  omega

/-- A bounded counter that fits has no room for one more exactly at its greatest value. -/
theorem Config.fits_succ_eq_false_iff {cfg : Config} {w n : Nat} (hw : cfg.idxW = some w) (hn : cfg.fits n = true) :
    cfg.fits (n + 1) = false ↔ n = 2 ^ w - 1 := by
  have hlt := (cfg.fits_iff n).1 hn w hw
  rw [Config.fits_eq_false_iff hw]
  omega

theorem Config.fits_of_unbounded {cfg : Config} (h : cfg.idxW = none) (n : Nat) : cfg.fits n = true := by
  rw [Config.fits, h]

namespace Machine

theorem exec_stfBit_refused_iff (b : Bit) (s : State) :
    exec (.stfBit b) s = .refused .counterOverflow ↔ s.cfg.fits (s.stf.scnt + 2) = false := unlessOverflow_refused_iff

theorem exec_dstBit_refused_iff (b : Bit) (s : State) :
    exec (.dstBit b) s = .refused .counterOverflow ↔ s.cfg.fits (s.dst.icnt + 1) = false := unlessOverflow_refused_iff

theorem exec_ffxBit_refused_iff (b : Bit) (s : State) :
    exec (.ffxBit b) s = .refused .counterOverflow ↔ s.cfg.fits (s.ffx.clen + 1) = false := unlessOverflow_refused_iff

/-- With unbounded counters every command has its effect. -/
theorem exec_completes_of_unbounded {s : State} (h : s.cfg.idxW = none) (i : Instr) : ∃ t, exec i s = .next t := by
  have hfits := Config.fits_of_unbounded h
  cases i with
  | stfInit L => exact ⟨_, exec_stfInit (hfits L)⟩
  | stfBit b => exact ⟨_, exec_stfBit b (hfits _)⟩
  | dstInit => exact ⟨_, exec_dstInit s⟩
  | dstBit b => exact ⟨_, exec_dstBit b (hfits _)⟩
  | ffxInit => exact ⟨_, exec_ffxInit s⟩
  | ffxBit b => exact ⟨_, exec_ffxBit b (hfits _)⟩
  | rxInit => exact ⟨_, exec_rxInit s⟩
  | rxBit b => exact ⟨_, exec_rxBit b (hfits _) (hfits _)⟩

/-- Settles O21: a BIT is refused when its counter does not fit after it. Under the invariant `icnt` and `clen` fit before
it, so they can overflow only at their greatest value; `STF.BIT` asks room for two bits, so there the bound stays `<`. -/
theorem counterOverflowIsRefused : Obligations.CounterOverflowIsRefused := by
  unfold Obligations.CounterOverflowIsRefused
  refine ⟨fun s b w hw hs => ?_, fun s i hw hrefused => ?_⟩
  · have hdst : exec (.dstBit b) s = .refused .counterOverflow ↔ s.dst.icnt = 2 ^ w - 1 :=
      (exec_dstBit_refused_iff b s).trans (Config.fits_succ_eq_false_iff hw hs.dst.icnt_fits)
    have hffx : exec (.ffxBit b) s = .refused .counterOverflow ↔ s.ffx.clen = 2 ^ w - 1 :=
      (exec_ffxBit_refused_iff b s).trans (Config.fits_succ_eq_false_iff hw hs.ffx.clen_fits)
    exact ⟨(exec_stfBit_refused_iff b s).trans (Config.fits_eq_false_iff hw _), hdst, hffx,
      (exec_rxBit_refused_iff b s).trans (or_congr hdst hffx)⟩
  · obtain ⟨t, hnext⟩ := exec_completes_of_unbounded hw i
    rw [hnext] at hrefused
    cases hrefused

end Machine

end Sys2Proof

end

/-! # Reset (R165), and that nothing depends on what it leaves unspecified (R166) -/

section

namespace Sys2Proof.Machine

/-- Settles O8: each field of the reset state is written out in its definition, whatever the parameters are. -/
theorem resetLeavesUnitsInitialised : Obligations.ResetLeavesUnitsInitialised := by
  unfold Obligations.ResetLeavesUnitsInitialised
  exact ⟨fun _ => ⟨rfl, rfl, rfl, rfl, rfl, rfl, rfl, rfl, rfl, rfl, rfl, rfl, rfl, rfl⟩, rfl⟩

/-! ## Alike stuffers: the first bit of a pass overwrites the only difference -/

namespace Stf

theorem start_alike (L : Nat) (p q : Bit) : (start L p).Alike (start L q) :=
  ⟨rfl, rfl, rfl, rfl, rfl, rfl, rfl, rfl, fun h => absurd rfl h⟩

theorem Alike.refl (u : Stf) : u.Alike u :=
  ⟨rfl, rfl, rfl, rfl, rfl, rfl, rfl, rfl, fun _ => rfl⟩

/-- Before the first bit of a pass the run is 0, and neither the due condition nor the new run looks at `last`. -/
theorem takeBit_of_run_eq_zero (inclusive : Bool) {u : Stf} (h : u.run = 0) (b : Bit) :
    u.takeBit inclusive b =
      { plen := u.plen, run := 1, last := b, rcnt := u.rcnt + 1, scnt := u.scnt + 1,
        S := u.S ++ [b], F := u.F ++ [false], P := u.P, M := u.M ++ [u.scnt] } := by
  have hnot : u.stuffDue inclusive = false := by simp [stuffDue, h]
  rw [takeBit_of_not_due hnot, nextRun, if_neg (by omega)]

variable {u v : Stf}

theorem Alike.eq_of_run_ne_zero (h : u.Alike v) (hrun : u.run ≠ 0) : u = v := by
  obtain ⟨hplen, hrun', hrcnt, hscnt, hS, hF, hP, hM, hlast⟩ := h
  specialize hlast hrun
  cases u
  cases v
  congr

theorem Alike.stuffDue_eq (h : u.Alike v) (inclusive : Bool) : u.stuffDue inclusive = v.stuffDue inclusive := by
  rw [stuffDue, stuffDue, h.run, h.rcnt, h.plen]

/-- Alike stuffers are equal after one more bit. -/
theorem Alike.takeBit_eq (h : u.Alike v) (inclusive : Bool) (b : Bit) :
    u.takeBit inclusive b = v.takeBit inclusive b := by
  by_cases hrun : u.run = 0
  · rw [takeBit_of_run_eq_zero inclusive hrun, takeBit_of_run_eq_zero inclusive (h.run ▸ hrun),
      h.plen, h.rcnt, h.scnt, h.S, h.F, h.P, h.M]
  · rw [h.eq_of_run_ne_zero hrun]

end Stf

/-! ## Alike destuffers, in the same way -/

namespace Dst

theorem start_alike (p q : Bit) : (start p).Alike (start q) :=
  ⟨rfl, rfl, rfl, rfl, rfl, fun h => absurd rfl h⟩

theorem Alike.refl (u : Dst) : u.Alike u :=
  ⟨rfl, rfl, rfl, rfl, rfl, fun _ => rfl⟩

/-- The first bit of a pass is kept and starts a run, whatever `last` holds. -/
theorem takeBit_of_run_eq_zero {u : Dst} (h : u.run = 0) (b : Bit) :
    u.takeBit b =
      { run := 1, last := b, icnt := u.icnt + 1, ccnt := u.ccnt + 1, C := u.C ++ [b], D := u.D ++ [false] } := by
  rw [takeBit_of_not_due (by omega), if_neg (by omega)]

variable {u v : Dst}

theorem Alike.eq_of_run_ne_zero (h : u.Alike v) (hrun : u.run ≠ 0) : u = v := by
  obtain ⟨hrun', hicnt, hccnt, hC, hD, hlast⟩ := h
  specialize hlast hrun
  cases u
  cases v
  congr

theorem Alike.dropDue_eq (h : u.Alike v) : u.dropDue = v.dropDue := by
  rw [dropDue, dropDue, h.run]

/-- Alike destuffers are equal after one more bit. -/
theorem Alike.takeBit_eq (h : u.Alike v) (b : Bit) : u.takeBit b = v.takeBit b := by
  by_cases hrun : u.run = 0
  · rw [takeBit_of_run_eq_zero hrun, takeBit_of_run_eq_zero (h.run ▸ hrun), h.icnt, h.ccnt, h.C, h.D]
  · rw [h.eq_of_run_ne_zero hrun]

end Dst

/-! ## Alike extractors: every output is a function of `clen` and of `MemRead` -/

namespace Ffx

theorem Alike.refl (u : Ffx) : u.Alike u := ⟨rfl, fun _ _ => rfl⟩

variable {u v : Ffx}

/-- The cell that becomes readable is the one that is written. -/
theorem Alike.takeBit (h : u.Alike v) (b : Bit) : (u.takeBit b).Alike (v.takeBit b) where
  clen := by rw [takeBit_clen, takeBit_clen, h.clen]
  cells a ha := by
    simp only [takeBit_clen, frameBits] at ha
    have hcells : a ≠ u.clen → u.cbuf.read a = v.cbuf.read a := fun hne => h.cells a (by simp only [frameBits]; omega)
    rw [takeBit_cbuf, takeBit_cbuf, ← h.clen]
    split
    · by_cases hlast : a = u.clen
      · rw [hlast, Cells.read_write_same, Cells.read_write_same]
      · rw [Cells.read_write_of_ne _ _ hlast, Cells.read_write_of_ne _ _ hlast, hcells hlast]
    · exact hcells (by omega)

theorem cells_congr {a n : Nat} (h : ∀ k, k < a + n → u.cbuf.read k = v.cbuf.read k) : u.cells a n = v.cells a n := by
  induction n generalizing a with
  | zero => rfl
  | succ n ih => rw [cells, cells, h a (by omega), ih fun k hk => h k (by omega)]

/-- `MemRead` is defined only on cells below `min(clen, 108)`, which agree. -/
theorem Alike.memRead_eq (h : u.Alike v) : u.memRead = v.memRead := by
  funext a n
  rw [memRead, memRead, ← h.clen]
  split
  · next hin => rw [cells_congr fun k hk => h.cells k (hk.trans_le hin)]
  · rfl

theorem Alike.id_eq (h : u.Alike v) : u.id = v.id := by
  rw [id, id, idValid, idValid, h.clen, h.memRead_eq]

theorem Alike.dlcValid_eq (h : u.Alike v) : u.dlcValid = v.dlcValid := by
  rw [dlcValid, dlcValid, h.clen]

theorem Alike.dlc_eq (h : u.Alike v) : u.dlc = v.dlc := by
  rw [dlc, dlc, h.dlcValid_eq, h.memRead_eq]

theorem Alike.crc_eq (h : u.Alike v) : u.crc = v.crc := by
  rw [crc, crc, crcValid, crcValid, h.clen, h.memRead_eq]

theorem Alike.claimedBytes_eq (h : u.Alike v) : u.claimedBytes = v.claimedBytes := by
  rw [claimedBytes, claimedBytes, h.dlc_eq]

theorem Alike.ndata_eq (h : u.Alike v) : u.ndata = v.ndata := by
  rw [ndata, ndata, h.clen, h.claimedBytes_eq]

theorem Alike.data_eq (h : u.Alike v) : u.data = v.data := by
  funext k
  rw [data, data, dataValid, dataValid, h.ndata_eq, h.memRead_eq]

theorem Alike.frame_eq (h : u.Alike v) : u.frame = v.frame := by
  rw [frame, frame, h.id_eq, h.dlcValid_eq, h.dlc_eq, h.ndata_eq, h.data_eq, h.crc_eq]

theorem Alike.fieldAvailable_eq (h : u.Alike v) (f : FrameField) : u.fieldAvailable f = v.fieldAvailable f := by
  rw [Bool.eq_iff_iff, fieldAvailable_iff, fieldAvailable_iff, h.clen, h.dlc_eq]

theorem Alike.fieldBox_eq (h : u.Alike v) (f : FrameField) : u.fieldBox f = v.fieldBox f := by
  rw [fieldBox, fieldBox, h.fieldAvailable_eq, h.memRead_eq]

end Ffx

/-! ## Alike states -/

namespace State.Alike

variable {s t : State}

theorem setStf (h : s.Alike t) {u v : Stf} (huv : u.Alike v) : (s.setStf u).Alike (t.setStf v) :=
  { h with stf := huv }

theorem setDst (h : s.Alike t) {u v : Dst} (huv : u.Alike v) : (s.setDst u).Alike (t.setDst v) :=
  { h with dst := huv }

theorem setFfx (h : s.Alike t) {u v : Ffx} (huv : u.Alike v) : (s.setFfx u).Alike (t.setFfx v) :=
  { h with ffx := huv }

/-- How many free values were drawn is no part of what must agree. -/
theorem drawn (h : s.Alike t) : s.drawn.Alike t.drawn := { h with }

theorem stfTakeBit (h : s.Alike t) (b : Bit) :
    (s.setStf (s.stf.takeBit s.cfg.plenInclusive b)).Alike (t.setStf (t.stf.takeBit t.cfg.plenInclusive b)) := by
  rw [h.cfg, h.stf.takeBit_eq]
  exact h.setStf (.refl _)

theorem dstTakeBit (h : s.Alike t) (b : Bit) : (s.setDst (s.dst.takeBit b)).Alike (t.setDst (t.dst.takeBit b)) := by
  rw [h.dst.takeBit_eq]
  exact h.setDst (.refl _)

/-- Both states drop the bit or both hand it on, since their due conditions agree. -/
theorem chainBit (h : s.Alike t) (b : Bit) : (s.chainBit b).Alike (t.chainBit b) := by
  by_cases hrun : s.dst.run = 5
  · rw [chainBit_of_due hrun, chainBit_of_due (h.dst.run ▸ hrun)]
    exact h.dstTakeBit b
  · rw [chainBit_of_not_due hrun, chainBit_of_not_due (h.dst.run ▸ hrun)]
    exact (h.dstTakeBit b).setFfx (h.ffx.takeBit b)

theorem stfCountersFit_eq (h : s.Alike t) : stfCountersFit s.cfg s.stf = stfCountersFit t.cfg t.stf := by
  rw [stfCountersFit, stfCountersFit, h.cfg, h.stf.scnt]

theorem dstCountersFit_eq (h : s.Alike t) : dstCountersFit s.cfg s.dst = dstCountersFit t.cfg t.dst := by
  rw [dstCountersFit, dstCountersFit, h.cfg, h.dst.icnt]

theorem ffxCountersFit_eq (h : s.Alike t) : ffxCountersFit s.cfg s.ffx = ffxCountersFit t.cfg t.ffx := by
  rw [ffxCountersFit, ffxCountersFit, h.cfg, h.ffx.clen]

/-! ## Commands on alike states -/

/-- A guarded command has the same outcome in both states when its guards agree and its results are alike. -/
theorem sameOutcome_unlessOverflow {p q : Bool} (hguard : p = q) (h : s.Alike t) :
    sameOutcome State.Alike (unlessOverflow p s) (unlessOverflow q t) := by
  subst hguard
  cases p with
  | true => exact h
  | false => exact rfl

theorem sameOutcome_stfInit (h : s.Alike t) (L : Nat) :
    sameOutcome State.Alike (exec (.stfInit L) s) (exec (.stfInit L) t) := by
  simp only [exec, execStfInit, ← h.cfg]
  split
  · exact (h.setStf (Stf.start_alike L _ _)).drawn
  · exact rfl

/-- Every command has the same outcome in two alike states: INIT starts a pass in both, and BIT passes the same guard and
gives alike units the same bit. -/
theorem sameOutcome_exec (h : s.Alike t) (i : Instr) : sameOutcome State.Alike (exec i s) (exec i t) := by
  cases i with
  | stfInit L => exact h.sameOutcome_stfInit L
  | stfBit b => exact (h.stfTakeBit b).sameOutcome_unlessOverflow h.stfCountersFit_eq
  | dstInit => exact (h.setDst (Dst.start_alike _ _)).drawn
  | dstBit b => exact (h.dstTakeBit b).sameOutcome_unlessOverflow h.dstCountersFit_eq
  | ffxInit => exact h.setFfx (.refl _)
  | ffxBit b => exact (h.setFfx (h.ffx.takeBit b)).sameOutcome_unlessOverflow h.ffxCountersFit_eq
  | rxInit => exact (h.setDst (Dst.start_alike _ _)).drawn.setFfx (.refl _)
  | rxBit b =>
    exact (h.chainBit b).sameOutcome_unlessOverflow (congrArg₂ and h.dstCountersFit_eq h.ffxCountersFit_eq)

end State.Alike

/-- Settles O54: each command keeps states alike, and each output is a function of what alike states share. -/
theorem unspecifiedValuesAreUnobservable : Obligations.UnspecifiedValuesAreUnobservable := by
  unfold Obligations.UnspecifiedValuesAreUnobservable
  intro s t h
  refine ⟨h.sameOutcome_exec, h.ffx.frame_eq, h.ffx.fieldBox_eq, ?_, h.dst.dropDue_eq⟩
  rw [h.cfg]
  exact h.stf.stuffDue_eq _

end Sys2Proof.Machine

end

/-! # Words and steps: decoding undoes encoding (R61 to R63), and the port runs what it is given, in order (R52) -/

section

namespace Sys2Proof

open Decode Encode

/-! ## Decode and encode -/

/-- Every command is the INIT or the BIT of its unit (R61). -/
theorem eq_initOf_or_eq_bitOf (i : Instr) : (∃ u L, i = initOf u L) ∨ ∃ u b, i = bitOf u b := by
  cases i with
  | stfInit L => exact .inl ⟨0b00#2, L, rfl⟩
  | stfBit b => exact .inr ⟨0b00#2, b, rfl⟩
  | dstInit => exact .inl ⟨0b01#2, 0, rfl⟩
  | dstBit b => exact .inr ⟨0b01#2, b, rfl⟩
  | ffxInit => exact .inl ⟨0b10#2, 0, rfl⟩
  | ffxBit b => exact .inr ⟨0b10#2, b, rfl⟩
  | rxInit => exact .inl ⟨0b11#2, 0, rfl⟩
  | rxBit b => exact .inr ⟨0b11#2, b, rfl⟩

/-- The fields of the encoder's word are those that the decoder asks for. -/
theorem decode_encode (i : Instr) : decode (encode i) = .ok i := by
  rw [decode_eq_ok_iff]
  rcases eq_initOf_or_eq_bitOf i with ⟨u, L, rfl⟩ | ⟨u, b, rfl⟩
  · rw [encode_initOf, unitField_assemble, initOf_eq_initOf_iff]
    exact ⟨zeroField_assemble .., .inl ⟨opField_assemble .., bitField_assemble .., rfl, fun hu => (if_pos hu).symm⟩⟩
  · rw [encode_bitOf, unitField_assemble, bitField_assemble]
    exact ⟨zeroField_assemble .., .inr ⟨opField_assemble .., rfl⟩⟩

/-- A word that decodes is put together from the fields of its command. -/
theorem encode_cmd_of_decode {c : Command} {i : Instr} (h : decode c = .ok i) : (encode i).cmd = c.cmd := by
  obtain ⟨hzero, ⟨hop, hbit, rfl⟩ | ⟨hop, rfl⟩⟩ := decode_eq_ok_iff.1 h
  · rw [encode_initOf, ← hop, ← hbit, assemble_fields c.cmd hzero]
  · rw [encode_bitOf, ← hop, assemble_fields c.cmd hzero]

/-- Settles O4, field by field: the encoder assembles the fields that the decoder takes apart, and `STF.INIT` takes its
operand from `arg`. -/
theorem decodeAndEncodeAgree : Obligations.DecodeAndEncodeAgree := by
  unfold Obligations.DecodeAndEncodeAgree
  refine ⟨decode_encode, fun c i h => ⟨encode_cmd_of_decode h, ?_⟩⟩
  rintro L rfl
  exact ((decode_eq_initOf_iff 0b00#2 L).1 h).2 rfl

/-- Settles O1: each word evaluates. -/
theorem programWordsDecode : Obligations.ProgramWordsDecode := by
  unfold Obligations.ProgramWordsDecode
  exact ⟨rfl, rfl, rfl, rfl, rfl, rfl, rfl, rfl, rfl, rfl⟩

end Sys2Proof

namespace Sys2Proof.Machine

/-! ## The port (R61, R52) -/

/-- Settles O5: taking the command from the port leaves the rest of it. -/
theorem stepRunsDecodedCommand : Obligations.StepRunsDecodedCommand := by
  unfold Obligations.StepRunsDecodedCommand
  intro s c rest i hport hdecode
  exact step_of_decode hport hdecode

theorem step_of_port_nil {s : State} (h : s.port = []) : step s = .next s := by
  rw [step, State.takeCommand, h]
  rfl

/-- Settles O6: with an empty port `step` awaits a command. -/
theorem stepWithoutCommandChangesNothing : Obligations.StepWithoutCommandChangesNothing := by
  unfold Obligations.StepWithoutCommandChangesNothing
  exact fun s => step_of_port_nil

/-- The word of a command in front of the port executes it, and leaves what waits behind. -/
theorem step_setPort_encode (i : Instr) (s : State) (p : List Command) :
    step (s.setPort (encode i :: p)) = withPort p (exec i s) :=
  (step_of_decode rfl (decode_encode i)).trans (exec_setPort i s p)

/-- A command does not see the port, so each step may leave the later words there where `runCommands` leaves only what
waits behind them all. -/
theorem run_setPort_map_encode (is : List Instr) (s : State) (rest : List Command) :
    Sys2Proof.core.run is.length (s.setPort (is.map encode ++ rest)) = runCommands is (s.setPort rest) := by
  induction is generalizing s with
  | nil => rfl
  | cons i is ih =>
    rw [List.length_cons, List.map_cons, List.cons_append, core_run_succ, step_setPort_encode, runCommands, exec_setPort]
    cases exec i s with
    | next t => exact ih t
    | fault r => rfl
    | refused r => rfl

/-- Settles O7, by induction over the list of commands. -/
theorem portRunsCommandsInOrder : Obligations.PortRunsCommandsInOrder := by
  unfold Obligations.PortRunsCommandsInOrder
  exact run_setPort_map_encode

end Sys2Proof.Machine

end

/-! # The invariant through reset and a step (R31, R22), and the field table (R45) -/

section

namespace Sys2Proof.Machine

/-- Settles O25: reset leaves each unit at the start of a pass. -/
theorem resetMeetsTheInvariant : Obligations.ResetMeetsTheInvariant := by
  unfold Obligations.ResetMeetsTheInvariant
  exact resetWith_inv

/-- Settles O26: a step waits, or takes a command from the port and executes it, and every command keeps the invariant of
each unit it writes. -/
theorem stepKeepsTheInvariant : Obligations.StepKeepsTheInvariant := by
  unfold Obligations.StepKeepsTheInvariant
  exact fun s t => step_keeps_inv

/-- Settles O28: the invariant, which the step keeps, lists the cells as the first numbers of the frame, in order. -/
theorem bufferStaysCanonical : Obligations.BufferStaysCanonical := by
  unfold Obligations.BufferStaysCanonical
  exact fun s t hs hstep => (step_keeps_inv hs hstep).ffx.filled.wf

/-- Settles O34: both columns of the table evaluate, row by row. -/
theorem fieldTableRows : Obligations.FieldTableRows := by
  unfold Obligations.FieldTableRows
  exact ⟨rfl, by decide⟩

end Sys2Proof.Machine

end

/-! # Commands: what each restores, writes and refuses (R30, R62, R150, R159, R166), and what the due conditions foretell
(R28, R101) -/

section

namespace Sys2Proof.Machine

/-! ## The INIT commands (R30, R62) -/

/-- At the start of a pass no output is valid (R30). -/
theorem Ffx.start_dataValid (k : Nat) : Ffx.start.dataValid k = false := decide_eq_false k.not_lt_zero

/-- Settles O9: reset and the two INITs leave the extractor at the start of a pass. -/
theorem noOutputAfterResetOrInit : Obligations.NoOutputAfterResetOrInit := by
  unfold Obligations.NoOutputAfterResetOrInit
  intro cfg s u hu
  have hstart : u = Ffx.start := by
    rcases hu with rfl | ⟨t, hexec, rfl⟩ | ⟨t, hexec, rfl⟩
    · rfl
    · cases hexec; rfl
    · cases hexec; rfl
  subst hstart
  have hdata : ∀ k, Ffx.start.data k = none := fun k => if_neg (by rw [Ffx.start_dataValid]; decide)
  exact ⟨rfl, rfl, rfl, rfl, fun k => ⟨Ffx.start_dataValid k, hdata k⟩, rfl, rfl, rfl⟩

/-- Settles O10: the equation of each INIT leaves the unit as reset does. -/
theorem initRestoresResetState : Obligations.InitRestoresResetState := by
  unfold Obligations.InitRestoresResetState
  intro s L
  exact ⟨fun hL => ⟨_, exec_stfInit hL, rfl⟩, ⟨_, exec_dstInit s, rfl⟩, ⟨_, exec_ffxInit s, rfl⟩,
    ⟨_, exec_rxInit s, rfl, rfl⟩⟩

theorem exec_stfInit_of_not_fits {s : State} {L : Nat} (h : s.cfg.fits L = false) :
    exec (.stfInit L) s = .refused .operandTooWide := by
  simp [exec, execStfInit, h]

/-- Settles O12: such an operand does not fit. -/
theorem stfInitRefusesWideOperand : Obligations.StfInitRefusesWideOperand := by
  unfold Obligations.StfInitRefusesWideOperand
  intro s L w hw hL
  have hpos := Nat.two_pow_pos w
  exact exec_stfInit_of_not_fits ((Config.fits_eq_false_iff hw L).2 (by omega))

/-! ## Every command completes or overflows (R150, R159), and writes its own unit (R10, R29) -/

/-- A guarded command has its effect or overflows. -/
theorem unlessOverflow_next_or_refused (ok : Bool) (t : State) :
    (∃ v, unlessOverflow ok t = .next v) ∨ unlessOverflow ok t = .refused .counterOverflow := by
  cases ok with
  | false => exact .inr rfl
  | true => exact .inl ⟨t, rfl⟩

/-- Settles O22: an INIT has its equation, and a BIT is guarded by its counters alone. -/
theorem everyCommandCompletesOrOverflows : Obligations.EveryCommandCompletesOrOverflows := by
  unfold Obligations.EveryCommandCompletesOrOverflows
  intro i s hi
  cases i with
  | stfInit L => exact .inl ⟨_, exec_stfInit hi⟩
  | stfBit b => exact (unlessOverflow_next_or_refused _ _).imp_right fun h => ⟨h, b, .inl rfl⟩
  | dstInit => exact .inl ⟨_, exec_dstInit s⟩
  | dstBit b => exact (unlessOverflow_next_or_refused _ _).imp_right fun h => ⟨h, b, .inr (.inl rfl)⟩
  | ffxInit => exact .inl ⟨_, exec_ffxInit s⟩
  | ffxBit b => exact (unlessOverflow_next_or_refused _ _).imp_right fun h => ⟨h, b, .inr (.inr (.inl rfl))⟩
  | rxInit => exact .inl ⟨_, exec_rxInit s⟩
  | rxBit b => exact (unlessOverflow_next_or_refused _ _).imp_right fun h => ⟨h, b, .inr (.inr (.inr rfl))⟩

/-- Settles O23: the next state of each command is the old one with its unit replaced. -/
theorem commandsWriteOnlyTheirUnit : Obligations.CommandsWriteOnlyTheirUnit := by
  unfold Obligations.CommandsWriteOnlyTheirUnit
  intro i s t h
  rcases exec_cases h with ⟨L, rfl, -, rfl⟩ | ⟨b, rfl, -, rfl⟩ | ⟨rfl, rfl⟩ | ⟨b, rfl, -, rfl⟩ | ⟨rfl, rfl⟩ |
    ⟨b, rfl, -, rfl⟩ | ⟨rfl, rfl⟩ | ⟨b, rfl, -, -, rfl⟩
  · exact ⟨rfl, rfl, fun _ => .inl ⟨L, rfl⟩, fun _ => ⟨L, rfl⟩, absurd rfl, absurd rfl⟩
  · exact ⟨rfl, rfl, fun _ => .inr ⟨b, rfl⟩, absurd (Stf.takeBit_plen _ _ b), absurd rfl, absurd rfl⟩
  · exact ⟨rfl, rfl, absurd rfl, absurd rfl, fun _ => .inl rfl, absurd rfl⟩
  · exact ⟨rfl, rfl, absurd rfl, absurd rfl, fun _ => .inr (.inr ⟨b, .inl rfl⟩), absurd rfl⟩
  · exact ⟨rfl, rfl, absurd rfl, absurd rfl, absurd rfl, fun _ => .inl rfl⟩
  · exact ⟨rfl, rfl, absurd rfl, absurd rfl, absurd rfl, fun _ => .inr (.inr ⟨b, .inl rfl⟩)⟩
  · exact ⟨rfl, rfl, absurd rfl, absurd rfl, fun _ => .inr (.inl rfl), fun _ => .inr (.inl rfl)⟩
  · have hstf := chainBit_stf s b
    exact ⟨chainBit_cfg s b, chainBit_port s b, absurd hstf, absurd (congrArg Stf.plen hstf),
      fun _ => .inr (.inr ⟨b, .inr rfl⟩), fun _ => .inr (.inr ⟨b, .inr rfl⟩)⟩

/-! ## The BIT commands of the destuffer, and what is due (R101, R28) -/

/-- Settles O16: the two cases of the run are the two equations of `DST.BIT`. -/
theorem dstBitKeepsOrDrops : Obligations.DstBitKeepsOrDrops := by
  unfold Obligations.DstBitKeepsOrDrops
  intro s b hfits
  refine ⟨_, exec_dstBit b hfits, fun hrun => ?_, fun hrun => ?_, Dst.takeBit_icnt _ _, rfl, rfl, rfl, rfl⟩
  · rw [State.setDst_dst, Dst.takeBit_of_due hrun]
    exact ⟨rfl, rfl, rfl, rfl, rfl⟩
  · rw [State.setDst_dst, Dst.takeBit_of_not_due hrun]
    exact ⟨rfl, rfl, rfl, rfl, rfl⟩

theorem Stf.length_S_takeBit (inclusive : Bool) (u : Stf) (b : Bit) :
    (u.takeBit inclusive b).S.length = u.S.length + if u.stuffDue inclusive then 2 else 1 := by
  cases hdue : u.stuffDue inclusive with
  | false => simp [takeBit_of_not_due hdue]
  | true => simp [takeBit_of_due hdue]

theorem Dst.length_C_takeBit (u : Dst) (b : Bit) :
    (u.takeBit b).C.length = u.C.length + if u.dropDue then 0 else 1 := by
  by_cases hrun : u.run = 5
  · simp [takeBit_of_due hrun, u.dropDue_iff.2 hrun]
  · simp [takeBit_of_not_due hrun, u.dropDue_iff, hrun]

/-- Settles O14: the due conditions select the equation of the next BIT, and the equation of a drop has no operand. -/
theorem dueConditionsForetellNextBit : Obligations.DueConditionsForetellNextBit := by
  unfold Obligations.DueConditionsForetellNextBit
  intro s t b
  refine ⟨fun h => ?_, fun h => ?_, fun hdue => ?_, Stf.stuffDue_iff _ _, Dst.dropDue_iff _⟩
  · obtain ⟨-, rfl⟩ := unlessOverflow_next h
    exact Stf.length_S_takeBit _ _ b
  · obtain ⟨-, rfl⟩ := unlessOverflow_next h
    exact Dst.length_C_takeBit _ b
  · simp only [exec, execDstBit, Dst.takeBit_ignores_operand ((Dst.dropDue_iff _).1 hdue) true false]

end Sys2Proof.Machine

end

/-! # Passes: the stuffer without protection (R168), the two units in step (R86, R104), and the lengths of the clean
sequence (R107) -/

section

namespace Sys2Proof.Machine

/-! ## The stuffer as a wire (R168) -/

/-- Without stuff bits the map is the identity (R31). -/
theorem Stf.Inv.M_eq_range {cfg : Config} {u : Stf} (h : u.Inv cfg) (hP : u.P = []) : u.M = List.range u.rcnt := by
  have hperm := h.enumerate
  have hcount := h.scnt_eq
  simp only [hP, List.nil_append, List.length_nil, Nat.add_zero] at hperm hcount
  rw [hcount] at hperm
  exact hperm.eq_of_pairwise (fun a b _ _ hab hba => absurd hab hba.asymm) h.M_increasing List.pairwise_lt_range

/-- Without stuff bits no symbol is flagged (R16). -/
theorem Stf.Inv.F_eq_replicate {cfg : Config} {u : Stf} (h : u.Inv cfg) (hP : u.P = []) :
    u.F = List.replicate u.rcnt false := by
  have hcount := h.scnt_eq
  rw [hP, List.length_nil, Nat.add_zero] at hcount
  rw [h.flags_mark, hP, hcount]
  simp [List.map_const']

/-- A pass with protected length 0 stuffs nothing, and what it emits without its stuff bits is its input. -/
theorem stuffPass_unprotected (inclusive : Bool) (p : Bit) (R : List Bit) :
    (stuffPass inclusive 0 p R).S = R ∧ (stuffPass inclusive 0 p R).P = [] ∧
    (stuffPass inclusive 0 p R).M = List.range R.length ∧
    (stuffPass inclusive 0 p R).F = List.replicate R.length false := by
  have h := stuffPass_inv inclusive 0 p R
  have hP := stuffPass_P_eq_nil (inclusive := inclusive) p R (Nat.zero_le _)
  have hdelete := deleteAt_stuffPass inclusive 0 p R
  rw [hP, deleteAt_nil] at hdelete
  exact ⟨hdelete, hP, by rw [h.M_eq_range hP, stuffPass_rcnt], by rw [h.F_eq_replicate hP, stuffPass_rcnt]⟩

/-- Settles O45: reset leaves the stuffer at the start of a pass with `PLEN` 0. -/
theorem stufferIsAWireAfterReset : Obligations.StufferIsAWireAfterReset := by
  unfold Obligations.StufferIsAWireAfterReset
  intro cfg R hR
  have hbits := runCommands_stfBits R (State.resetWith cfg) (by simpa [State.resetWith] using hR)
  exact ⟨_, hbits, stuffPass_unprotected cfg.plenInclusive (Config.freeBit 0) R⟩

/-! ## The two units in step (R86, R104) -/

/-- After a bit the run is no longer 0 (R31). -/
theorem stuffPass_run_ne_zero (inclusive : Bool) (L : Nat) (p : Bit) {R : List Bit} (hR : R ≠ []) :
    (stuffPass inclusive L p R).run ≠ 0 := by
  have h := stuffPass_inv inclusive L p R
  rw [Ne, h.run_zero_iff_scnt, h.scnt_zero_iff_rcnt, stuffPass_rcnt]
  exact fun h0 => hR (List.eq_nil_of_length_eq_zero h0)

/-- Settles O51: the pass that stays protected keeps the destuffer in step, and after a bit `last` is part of that. -/
theorem stufferAndDestufferRunInStep : Obligations.StufferAndDestufferRunInStep := by
  unfold Obligations.StufferAndDestufferRunInStep
  intro inclusive R L p q hL hR
  have hstep := (destuffPass_inStep (inclusive := inclusive) p q (protected_of_le hL)).1
  exact ⟨hstep.run, hstep.last (stuffPass_run_ne_zero inclusive L p hR)⟩

/-! ## The drops (R107) -/

/-- One more flag at the end of `D` adds its own index to the dropped positions when it is 1, and nothing when it is 0. -/
theorem Dst.dropPositions_of_D_snoc {u v : Dst} {f : Bit} (h : v.D = u.D ++ [f]) :
    v.dropPositions = u.dropPositions ++ if f then [u.D.length] else [] := by
  have hbefore : ∀ j ∈ List.range u.D.length, (u.D ++ [f]).getD j false = u.D.getD j false := fun j hj =>
    List.getD_append _ _ _ _ (List.mem_range.1 hj)
  rw [dropPositions, dropPositions, h, List.length_append, List.length_singleton, List.range_succ,
    List.filter_append, List.filter_congr hbefore]
  cases f <;> simp

theorem Dst.dropPositions_takeBit_of_due {u : Dst} (h : u.run = 5) (b : Bit) :
    (u.takeBit b).dropPositions = u.dropPositions ++ [u.D.length] :=
  dropPositions_of_D_snoc (f := true) (by rw [takeBit_of_due h])

theorem Dst.dropPositions_takeBit_of_not_due {u : Dst} (h : u.run ≠ 5) (b : Bit) :
    (u.takeBit b).dropPositions = u.dropPositions :=
  (dropPositions_of_D_snoc (f := false) (by rw [takeBit_of_not_due h])).trans (List.append_nil _)

/-- A run grows by at most one a bit, and a drop needs a run of five and leaves one of one. So the drops lie five or more
apart, as does the first from index 0; the run lies behind the last of them; and each costs five bits. -/
structure Dst.Spaced (u : Dst) : Prop where
  spaced : (0 :: u.dropPositions).Pairwise (fun p q => p + 5 ≤ q)
  room : ∀ p ∈ 0 :: u.dropPositions, p + u.run ≤ u.D.length
  cost : 5 * u.D.count true + u.run ≤ u.D.length

theorem Dst.start_spaced (q : Bit) : (Dst.start q).Spaced :=
  ⟨List.pairwise_singleton _ _, by simp [dropPositions, start], le_refl 0⟩

/-- A drop falls at the end of `D`, with a run of five behind every earlier drop. -/
theorem Dst.Spaced.takeBit_of_due {u : Dst} (h : u.Spaced) (hrun : u.run = 5) (b : Bit) : (u.takeBit b).Spaced := by
  obtain ⟨hspaced, hroom, hcost⟩ := h
  rw [hrun] at hroom hcost
  refine ⟨?_, ?_, ?_⟩
  · rw [dropPositions_takeBit_of_due hrun, ← List.cons_append, List.pairwise_append]
    exact ⟨hspaced, List.pairwise_singleton _ _, fun p hp q hq => List.mem_singleton.1 hq ▸ hroom p hp⟩
  · rw [dropPositions_takeBit_of_due hrun, ← List.cons_append, Dst.takeBit_of_due hrun, List.length_append]
    refine List.forall_mem_append.2 ⟨fun p hp => ?_, List.forall_mem_singleton.2 (le_refl _)⟩
    exact Nat.add_le_add_right ((Nat.le_add_right p 5).trans (hroom p hp)) 1
  · simp [Dst.takeBit_of_due hrun]; omega

/-- A bit that is kept adds no drop, and the run grows no faster than the input. -/
theorem Dst.Spaced.takeBit_of_not_due {u : Dst} (h : u.Spaced) (hrun : u.run ≠ 5) (b : Bit) :
    (u.takeBit b).Spaced := by
  obtain ⟨hspaced, hroom, hcost⟩ := h
  have hgrow : (u.takeBit b).run ≤ u.run + 1 := by
    rw [Dst.takeBit_of_not_due hrun]; dsimp only; split <;> omega
  have hD : (u.takeBit b).D = u.D ++ [false] := by rw [Dst.takeBit_of_not_due hrun]
  have hdrops := dropPositions_takeBit_of_not_due hrun b
  refine ⟨hdrops ▸ hspaced, fun p hp => ?_, ?_⟩
  · have := hroom p (hdrops ▸ hp)
    rw [hD, List.length_append, List.length_singleton]
    omega
  · simp [hD]; omega

theorem destuffPass_spaced (q : Bit) (B : List Bit) : (destuffPass q B).Spaced := by
  induction B using List.reverseRecOn with
  | nil => exact Dst.start_spaced q
  | append_singleton B b ih =>
    rw [destuffPass_snoc]
    by_cases hrun : (destuffPass q B).run = 5
    · exact ih.takeBit_of_due hrun b
    · exact ih.takeBit_of_not_due hrun b

/-- Every input bit is emitted or dropped. -/
theorem destuffPass_length_C (q : Bit) (B : List Bit) :
    (destuffPass q B).C.length = B.length - (destuffPass q B).D.count true := by
  have h := destuffPass_inv q B
  have hdrops := h.drops
  rw [destuffPass_icnt, h.length_C] at hdrops
  omega

/-- The last bit belongs to the run, so the drops have cost five bits each of the others. -/
theorem destuffPass_count_drops_le (q : Bit) (B : List Bit) :
    (destuffPass q B).D.count true ≤ (B.length - 1) / 5 := by
  have hcost := (destuffPass_spaced q B).cost
  have hrun := (destuffPass_inv q B).run_zero_iff_icnt
  rw [destuffPass_icnt] at hrun
  rw [destuffPass_length_D] at hcost
  omega

/-- The destuffer after `n` equal bits `b`: every sixth was dropped, the run is what has come since then, and a drop, which
counts as the complement (D9), is not continued by the next `b`. -/
structure Dst.AfterEqual (b : Bit) (n : Nat) (u : Dst) : Prop where
  drops : u.D.count true = n / 6
  between : n % 6 ≠ 0 → u.run = n % 6 ∧ u.last = b
  afterDrop : n % 6 = 0 → u.run ≠ 5 ∧ ¬(1 ≤ u.run ∧ b = u.last)

theorem Dst.AfterEqual.takeBit {b : Bit} {n : Nat} {u : Dst} (h : u.AfterEqual b n) :
    (u.takeBit b).AfterEqual b (n + 1) := by
  obtain ⟨hdrops, hbetween, hafter⟩ := h
  by_cases h0 : n % 6 = 0
  · obtain ⟨hrun, hcont⟩ := hafter h0
    rw [takeBit_of_not_due hrun, if_neg hcont]
    exact ⟨by simp [hdrops]; omega, fun _ => ⟨by dsimp only; omega, rfl⟩, fun h => by omega⟩
  · obtain ⟨hrun, hlast⟩ := hbetween h0
    by_cases h5 : u.run = 5
    · rw [takeBit_of_due h5]
      exact ⟨by simp [hdrops]; omega, fun h => by omega, fun _ => ⟨by simp, by simp [hlast]⟩⟩
    · rw [takeBit_of_not_due h5, if_pos ⟨by omega, hlast.symm⟩]
      exact ⟨by simp [hdrops]; omega, fun _ => ⟨by dsimp only; omega, rfl⟩, fun h => by omega⟩

theorem destuffPass_replicate_afterEqual (q b : Bit) (n : Nat) :
    (destuffPass q (List.replicate n b)).AfterEqual b n := by
  induction n with
  | zero => exact ⟨rfl, fun h => absurd rfl h, fun _ => ⟨by simp [Dst.start], by simp [Dst.start]⟩⟩
  | succ n ih => rw [List.replicate_succ', destuffPass_snoc]; exact ih.takeBit

/-- Settles O48: the counts follow from the invariant and from what the drops cost, their spacing by induction over the
pass, and the number for equal bits from the cycle of six that they go through. -/
theorem destuffedLengths : Obligations.DestuffedLengths := by
  unfold Obligations.DestuffedLengths
  refine ⟨fun B last => ?_, fun n b last => (destuffPass_replicate_afterEqual last b n).drops⟩
  obtain ⟨hfirst, hspaced⟩ := List.pairwise_cons.1 (destuffPass_spaced last B).spaced
  exact ⟨destuffPass_length_C last B, destuffPass_count_drops_le last B, fun p hp => by simpa using hfirst p hp,
    hspaced.isChain⟩

end Sys2Proof.Machine

end
